-- ==== Sys2Proof/Word.lean ====
section
/-! DEFINITION. The words of the hardware: a byte (`u8`) and a program-counter value (`u9`)
(spec/00_scope.md R8). -/

namespace Sys2Proof

/-- `u8`: a register, a memory cell, an operand byte, SP, FL. Always read as unsigned (R9). -/
abbrev Byte := BitVec 8

/-- `u9`: a value of the program counter (spec/10_state.md R16). -/
abbrev PcWord := BitVec 9

end Sys2Proof
end

