-- ==== Sys2Proof/Config.lean ====
section
/-! DEFINITION. The implementation parameters of spec/00_scope.md R6. Each is fixed for this hardware;
the spec leaves no value free, so no constant here is opaque. -/

namespace Sys2Proof.Config

/-- `MEM_SIZE`: addresses 0 to 255 (R6, R34). -/
abbrev memSize : Nat := 256

/-- `NUM_GPR`: R0 to R7 (R6, R12). -/
abbrev numGpr : Nat := 8

/-- `SP_RESET` (R6, R20). -/
abbrev spReset : Byte := 0xF4

/-- `PC_RESET` (R6). -/
abbrev pcReset : PcWord := 0

/-- `REG_RESET`: the spec's own decision D2 (R33; log 6). -/
abbrev regReset : Byte := 0x00

/-- `FL_RESET`: the spec's own decision D3 (R26, R33; log 6). -/
abbrev flReset : Byte := 0x00

/-- `MAX_INSN_LEN` (R6, R48). -/
abbrev maxInsnLen : Nat := 3

/-- `LOAD_BASE`: where the image and the first fetch begin (R6, R109). -/
abbrev loadBase : Nat := 0

end Sys2Proof.Config
end

