-- ==== Sys2Proof/Machine/State.lean ====
section
/-! DEFINITION. The state of the block (spec/10_state.md), its reset value, and the reasons a load can
fail. Plain data throughout. -/

namespace Sys2Proof.Machine

/-- R0 to R7 (R12, R13). -/
abbrev RegFile := Vector Byte 8

/-- The memory of R34: pairs (address, byte), addresses strictly rising and below 256, no byte 0x00.
An address not listed reads 0x00, the content reset gives every byte (R33, R108). Ops.lean has
`memGet`, `memSet` and `Memory.wf`. -/
abbrev Memory := List Host.Cell

/-- The fault reasons the engine raises (spec/60_exceptions.md R92). They are values of the run status:
raising one is a next state (R96; log 1), never a stop of the model. -/
inductive FaultReason where
  /-- DIV with a divisor register that holds 0 (R77). -/
  | divisionByZero
  /-- An opcode byte with bit 5 clear that is not in the Dispatch Table (R56). -/
  | unsupportedOpcode
  /-- An opcode byte with bit 5 set that is no ALU operation (R56). -/
  | unsupportedALUOperation
  /-- A fetch above 255 (R62, R65), a push at SP = 0x00 (R82), a pop at SP = 0xFF (R83), a CALL whose
  return address is 256 (R87). -/
  | outOfBoundsAccess
  /-- A register operand byte above 7 (R54). -/
  | invalidRegister
deriving DecidableEq, Repr

/-- The run status (R27). -/
inductive RunStatus where
  | running
  | halted
  | faulted (reason : FaultReason)
deriving DecidableEq, Repr

/-- The internal latches IR, op1, op2 (R28). No instruction reads them and no port shows them: the
trace tuple is built from memory (R68). -/
structure Latches where
  ir : Byte
  op1 : Byte
  op2 : Byte
deriving DecidableEq, Repr

/-- One tuple of the trace port: `(pc, ir, op1, op2, R0..R7)` (R31, R68). -/
structure TraceTuple where
  pc : PcWord
  ir : Byte
  op1 : Byte
  op2 : Byte
  regs : RegFile
deriving DecidableEq, Repr

/-- The state of the block. -/
structure State where
  /-- R0 to R7 (R12). -/
  regs : RegFile
  /-- The program counter, 9 bits (R16). -/
  pc : PcWord
  /-- The stack pointer: the address of the most recently pushed byte (R20, R21). -/
  sp : Byte
  /-- The flags register `0b00000LGE` (R23, R24). -/
  fl : Byte
  /-- The run status (R27). -/
  status : RunStatus
  /-- The 256-byte memory (R34). -/
  mem : Memory
  /-- The bytes sent on the `out` port since reset, in program order (R30). -/
  out : List Byte
  /-- The tuples sent on the `trace` port since reset, in program order (R31; log 4). -/
  trace : List TraceTuple
  /-- IR, op1, op2 (R28; log 3). -/
  latches : Latches
deriving DecidableEq, Repr

/-- Why the model stops without a state. No step stops: every fault of the ENGINE is a next state whose
status says `Faulted(reason)` (R96). -/
inductive Fault where
  /-- Raised by `load` and `resetInput` (Machine/Ports.lean) when the loader could not open its source,
  "a fault of the loader" after which "no run begins" (R94, R109). The engine never raises it. Safe:
  the model has no run where the hardware has none. -/
  | programNotFound
deriving DecidableEq, Repr

/-- What the model turns away. No step is refused. -/
inductive Refusal where
  /-- An instruction without a meaning, by its mnemonic. Raised by no arm of `exec`: all 15 have one. -/
  | notModelled (mnemonic : String)
  /-- Raised by `load` and `resetInput` on an image of more than 256 bytes: "the load is refused, the
  block does not start" (R109). Safe: the hardware has no run either. -/
  | imageTooLong (length : Nat)
deriving DecidableEq, Repr

/-- The state right after reset with the empty image (R33, R108, R109): the values of the table of R33.
The latches have no value there; 0x00 is a DESIGN CHOICE (log 3). -/
def State.reset : State where
  regs := Vector.replicate 8 Config.regReset
  pc := Config.pcReset
  sp := Config.spReset
  fl := Config.flReset
  status := .running
  mem := []
  out := []
  trace := []
  latches := { ir := 0, op1 := 0, op2 := 0 }

end Sys2Proof.Machine
end

