-- ==== Sys2Proof/Machine/Ops.lean ====
section
/-! DEFINITION. The named operations over memory and registers, the stack primitives, and raising a
fault (spec/00_scope.md R10, spec/20_memory.md, spec/43_stack.md, spec/60_exceptions.md). Every meaning
is written over these. There is no return from an exception on this hardware (R99), so none stands
beside `raiseFault`. -/

namespace Sys2Proof.Machine

/-! ## Memory -/

/-- What an address no entry lists reads as: "zero-initialized" (R34, R33). -/
def unlistedByte : Byte := 0x00

/-- The byte at an address (no range check: `memRead` has it). -/
def memGet : Memory → Nat → Byte
  | [], _ => unlistedByte
  | (k, b) :: m, a => if k = a then b else memGet m a

/-- Put a byte at an address, keeping the addresses rising and no entry equal to what an unlisted
address reads as. -/
def memSet : Memory → Nat → Byte → Memory
  | [], a, v => if v = unlistedByte then [] else [(a, v)]
  | (k, b) :: m, a, v =>
    if k < a then (k, b) :: memSet m a v
    else if k = a then (if v = unlistedByte then m else (a, v) :: m)
    else (if v = unlistedByte then (k, b) :: m else (a, v) :: (k, b) :: m)

/-- The canonical form: addresses strictly rising and inside the memory, no entry that an unlisted
address would read as. -/
def Memory.wf : Memory → Bool
  | [] => true
  | (k, b) :: m =>
    decide (k < Config.memSize) && decide (b ≠ unlistedByte) &&
      m.all (fun c => decide (k < c.1)) && Memory.wf m

/-- `MemRead(addr, 1)` (R34). -/
def memRead (m : Memory) (addr : Nat) : Except FaultReason Byte :=
  if addr < Config.memSize then .ok (memGet m addr) else .error .outOfBoundsAccess

/-- `MemWrite(addr, 1, v)` (R34). -/
def memWrite (m : Memory) (addr : Nat) (v : Byte) : Except FaultReason Memory :=
  if addr < Config.memSize then .ok (memSet m addr v) else .error .outOfBoundsAccess

/-- Bytes at rising addresses from `a` (the loader's write, R109). -/
def memStore (m : Memory) (a : Nat) : List Byte → Memory
  | [] => m
  | b :: bs => memStore (memSet m a b) (a + 1) bs

/-! ## Registers -/

/-- `x[i]` (R10, R12): no register is hardwired. -/
def getReg (s : State) (i : Fin 8) : Byte := s.regs[i]

/-- `x[i] <- v` (R10, R12). -/
def setReg (i : Fin 8) (v : Byte) (s : State) : State := { s with regs := s.regs.set i v }

/-- `pc <- target` (R10). -/
def setPc (target : PcWord) (s : State) : State := { s with pc := target }

/-- `pc <- pc + n`, for an instruction of `n` bytes (R17, R66). It wraps only from values of PC no
run reaches (R18; log 10). -/
def advance (n : Nat) (s : State) : State := setPc (s.pc + BitVec.ofNat 9 n) s

/-- `zext_9` (R8): a byte as a program-counter value. -/
def zext9 (b : Byte) : PcWord := b.setWidth 9

/-- `sp <- v` (R10). -/
def setSp (v : Byte) (s : State) : State := { s with sp := v }

/-- `fl <- v` (R10). -/
def setFl (v : Byte) (s : State) : State := { s with fl := v }

/-- `status <- v` (R10). -/
def setStatus (v : RunStatus) (s : State) : State := { s with status := v }

/-- Replace the memory. -/
def setMem (m : Memory) (s : State) : State := { s with mem := m }

/-- `Out(v)` (R10, R30): one byte on the `out` port, after those sent before it. -/
def emit (v : Byte) (s : State) : State := { s with out := s.out ++ [v] }

/-! ## The stack -/

/-- Where `Push` writes: `sp - 1`; at SP = 0x00 there is no such address (R82). -/
def pushSlot (s : State) : Except FaultReason Byte :=
  if s.sp = 0x00 then .error .outOfBoundsAccess else .ok (s.sp - 1)

/-- `Push(v)` (R82): SP decrements first, then the byte is written at the new SP. -/
def push (v : Byte) (s : State) : Except FaultReason State := do
  let slot ← pushSlot s
  let m ← memWrite s.mem slot.toNat v
  pure (setMem m (setSp slot s))

/-- `Pop()` (R83): the byte at SP, then SP increments; at SP = 0xFF it faults before anything changes. -/
def pop (s : State) : Except FaultReason (Byte × State) :=
  if s.sp = 0xFF then .error .outOfBoundsAccess
  else do
    let v ← memRead s.mem s.sp.toNat
    pure (v, setSp (s.sp + 1) s)

/-! ## Taking a fault -/

/-- `raise Fault(reason)` (R96): only the status changes; PC keeps the address of the faulting
instruction's opcode byte (R97), nothing is saved and control goes nowhere (R98). -/
def raiseFault (reason : FaultReason) (s : State) : State := setStatus (.faulted reason) s

/-- The end of an instruction that started in `s` (R67, R96): all its writes as one update, or none of
them and the fault's status. -/
def conclude (s : State) (r : Except FaultReason State) : Host.Outcome State Fault Refusal :=
  match r with
  | .ok t => .next t
  | .error reason => .next (raiseFault reason s)

end Sys2Proof.Machine
end

