-- ==== Sys2Proof/Machine/Flags.lean ====
section
/-! DEFINITION. The flags register FL (spec/10_state.md R23 to R26) and the one computation that writes
it (spec/41_alu.md R78). -/

namespace Sys2Proof.Machine

/-- E, bit 0 (R24). -/
def flagE (fl : Byte) : Bool := fl.getLsbD 0

/-- G, bit 1 (R24). -/
def flagG (fl : Byte) : Bool := fl.getLsbD 1

/-- L, bit 2 (R24). -/
def flagL (fl : Byte) : Bool := fl.getLsbD 2

/-- FL after a comparison: exactly one of E, G, L, by the UNSIGNED values (R25, R78, R9). -/
def compareFlags (x y : Byte) : Byte :=
  if x.toNat = y.toNat then 0b00000001
  else if y.toNat < x.toNat then 0b00000010
  else 0b00000100

end Sys2Proof.Machine
end

