-- ==== Sys2Proof/Machine/Operands.lean ====
section
/-! DEFINITION. The operand forms (spec/30_encoding.md R51 to R54): a register named by a whole byte,
a pair of them, an immediate byte used as it stands. -/

namespace Sys2Proof.Machine

/-- `RegIdx(b)` (R10, R54): no bits are masked off (R52). -/
def regIdx (b : Byte) : Except FaultReason (Fin 8) :=
  if h : b.toNat < 8 then .ok ⟨b.toNat, h⟩ else .error .invalidRegister

/-- Both register operands of format RR, `ra` checked before `rb` (R69, R72). -/
def regPair (ra rb : Byte) : Except FaultReason (Fin 8 × Fin 8) := do
  let a ← regIdx ra
  let b ← regIdx rb
  pure (a, b)

/-- `imm8` (R53): no extension, no scaling. -/
def immediate (imm8 : Byte) : Byte := imm8

end Sys2Proof.Machine
end

