-- ==== Sys2Proof/Machine/Alu.lean ====
section
/-! DEFINITION. ADD, SUB, MUL, DIV, CMP (spec/41_alu.md R72 to R78). Each result is the exact one over
the integers, kept modulo 256 (R73); no carry, borrow or overflow is recorded. -/

namespace Sys2Proof.Machine

/-- `(x + y) mod 256` (R73, R74). -/
def aluAdd (x y : Byte) : Byte := BitVec.ofNat 8 (x.toNat + y.toNat)

/-- `(x - y) mod 256`, the non-negative remainder (R73, R75). -/
def aluSub (x y : Byte) : Byte := BitVec.ofInt 8 ((x.toNat : Int) - (y.toNat : Int))

/-- `(x * y) mod 256`: the low 8 bits of the product (R73, R76). -/
def aluMul (x y : Byte) : Byte := BitVec.ofNat 8 (x.toNat * y.toNat)

/-- `x div y`, the unsigned quotient rounded toward zero; a zero divisor faults (R73, R77). -/
def aluDiv (x y : Byte) : Except FaultReason Byte :=
  if y.toNat = 0 then .error .divisionByZero else .ok (BitVec.ofNat 8 (x.toNat / y.toNat))

/-- What ADD, SUB, MUL and DIV share (R72): check `ra` then `rb`, read both registers as they stood,
write R`a`, advance by 3. -/
def aluWrite (f : Byte → Byte → Except FaultReason Byte) (ra rb : Byte) (s : State) :
    Except FaultReason State := do
  let (a, b) ← regPair ra rb
  let v ← f (getReg s a) (getReg s b)
  pure (advance 3 (setReg a v s))

/-- ADD (R74). -/
def execAdd (ra rb : Byte) (s : State) : Host.Outcome State Fault Refusal :=
  conclude s (aluWrite (fun x y => .ok (aluAdd x y)) ra rb s)

/-- SUB (R75). -/
def execSub (ra rb : Byte) (s : State) : Host.Outcome State Fault Refusal :=
  conclude s (aluWrite (fun x y => .ok (aluSub x y)) ra rb s)

/-- MUL (R76). -/
def execMul (ra rb : Byte) (s : State) : Host.Outcome State Fault Refusal :=
  conclude s (aluWrite (fun x y => .ok (aluMul x y)) ra rb s)

/-- DIV (R77): the operands are checked before the divisor is tested (R69). -/
def execDiv (ra rb : Byte) (s : State) : Host.Outcome State Fault Refusal :=
  conclude s (aluWrite aluDiv ra rb s)

/-- CMP (R78): all of FL is written, no register. -/
def execCmp (ra rb : Byte) (s : State) : Host.Outcome State Fault Refusal :=
  conclude s do
    let (a, b) ← regPair ra rb
    pure (advance 3 (setFl (compareFlags (getReg s a) (getReg s b)) s))

end Sys2Proof.Machine
end

