-- ==== Sys2Proof/Machine/ControlFlow.lean ====
section
/-! DEFINITION. CALL, RET, JMP, JEQ, JNE (spec/44_control_flow.md R86 to R91). A target is a byte,
zero-extended into the 9-bit PC; there is no delay slot and no further advance (R86). -/

namespace Sys2Proof.Machine

/-- The byte CALL pushes: `pc + 2`, "the address immediately after the CALL"; 256 does not fit in a
stack byte and faults (R87). -/
def returnAddress (s : State) : Except FaultReason Byte :=
  if s.pc.toNat + 2 < Config.memSize then .ok (BitVec.ofNat 8 (s.pc.toNat + 2))
  else .error .outOfBoundsAccess

/-- CALL (R87): the register check, the return address, then the push. -/
def execCall (ra : Byte) (s : State) : Host.Outcome State Fault Refusal :=
  conclude s do
    let a ← regIdx ra
    let ret ← returnAddress s
    let t ← push ret s
    pure (setPc (zext9 (getReg s a)) t)

/-- RET (R88). -/
def execRet (s : State) : Host.Outcome State Fault Refusal :=
  conclude s do
    let (v, t) ← pop s
    pure (setPc (zext9 v) t)

/-- JMP (R89). -/
def execJmp (ra : Byte) (s : State) : Host.Outcome State Fault Refusal :=
  conclude s do
    let a ← regIdx ra
    pure (setPc (zext9 (getReg s a)) s)

/-- What JEQ and JNE share: the register is checked whether or not the jump is taken; not taken, PC
advances by the length, 2 (R90, R91, R54). -/
def branchIf (taken : Bool) (ra : Byte) (s : State) : Except FaultReason State := do
  let a ← regIdx ra
  pure (if taken then setPc (zext9 (getReg s a)) s else advance 2 s)

/-- JEQ (R90): taken when E is set. -/
def execJeq (ra : Byte) (s : State) : Host.Outcome State Fault Refusal :=
  conclude s (branchIf (flagE s.fl) ra s)

/-- JNE (R91): taken when E is clear. -/
def execJne (ra : Byte) (s : State) : Host.Outcome State Fault Refusal :=
  conclude s (branchIf (!flagE s.fl) ra s)

end Sys2Proof.Machine
end

