-- ==== Sys2Proof/Machine/LoadPrintHalt.lean ====
section
/-! DEFINITION. LDI, PRN, HLT (spec/42_load_print_halt.md R79 to R81). -/

namespace Sys2Proof.Machine

/-- LDI (R79). -/
def execLdi (ra imm8 : Byte) (s : State) : Host.Outcome State Fault Refusal :=
  conclude s do
    let a ← regIdx ra
    pure (advance 3 (setReg a (immediate imm8) s))

/-- PRN (R80): one byte on `out`; a faulting PRN sends nothing. -/
def execPrn (ra : Byte) (s : State) : Host.Outcome State Fault Refusal :=
  conclude s do
    let a ← regIdx ra
    pure (advance 2 (emit (getReg s a) s))

/-- HLT (R81): PC advances by 1 and the status becomes `Halted`; all other state is kept (R32). -/
def execHlt (s : State) : Host.Outcome State Fault Refusal :=
  conclude s (.ok (setStatus .halted (advance 1 s)))

end Sys2Proof.Machine
end

