-- ==== Sys2Proof/Machine/Stack.lean ====
section
/-! DEFINITION. PUSH, POP (spec/43_stack.md R84, R85), over the primitives of Ops.lean. -/

namespace Sys2Proof.Machine

/-- PUSH (R84). -/
def execPush (ra : Byte) (s : State) : Host.Outcome State Fault Refusal :=
  conclude s do
    let a ← regIdx ra
    let t ← push (getReg s a) s
    pure (advance 2 t)

/-- POP (R85): the popped byte stays in memory. -/
def execPop (ra : Byte) (s : State) : Host.Outcome State Fault Refusal :=
  conclude s do
    let a ← regIdx ra
    let (v, t) ← pop s
    pure (advance 2 (setReg a v t))

end Sys2Proof.Machine
end

