-- ==== Sys2Proof/Syntax.lean ====
section
/-! DEFINITION. The 15 instructions of spec/30_encoding.md R55, one constructor per row of
spec/opcode_table.json. A register operand is the WHOLE operand byte (R52): 0 to 7 name R0 to R7, and a
byte above 7 is an instruction that decodes, is traced and then raises `InvalidRegister` (R54, R69),
so it is syntax too; WellFormed.lean says which terms are legal. -/

namespace Sys2Proof

/-- An instruction with its operand bytes, first operand byte first (R51, R59). -/
inductive Instr where
  /-- HLT, format N (R81). -/
  | hlt
  /-- RET, format N (R88). -/
  | ret
  /-- PUSH ra, format R (R84). -/
  | push (ra : Byte)
  /-- POP ra, format R (R85). -/
  | pop (ra : Byte)
  /-- PRN ra, format R (R80). -/
  | prn (ra : Byte)
  /-- CALL ra, format R (R87). -/
  | call (ra : Byte)
  /-- JMP ra, format R (R89). -/
  | jmp (ra : Byte)
  /-- JEQ ra, format R (R90). -/
  | jeq (ra : Byte)
  /-- JNE ra, format R (R91). -/
  | jne (ra : Byte)
  /-- LDI ra, imm8, format RI (R79). -/
  | ldi (ra imm8 : Byte)
  /-- ADD ra, rb, format RR (R74). -/
  | add (ra rb : Byte)
  /-- SUB ra, rb, format RR (R75). -/
  | sub (ra rb : Byte)
  /-- MUL ra, rb, format RR (R76). -/
  | mul (ra rb : Byte)
  /-- DIV ra, rb, format RR (R77). -/
  | div (ra rb : Byte)
  /-- CMP ra, rb, format RR (R78). -/
  | cmp (ra rb : Byte)
deriving DecidableEq, Repr

/-- What the opcode byte alone selects: the handler or the ALU operation (R55, R64). -/
inductive Opcode where
  | hlt | ret | push | pop | prn | call | jmp | jeq | jne | ldi
  | add | sub | mul | div | cmp
deriving DecidableEq, Repr

/-- Why a byte string does not begin with an instruction, by name. -/
inductive DecodeError where
  /-- No opcode byte: the fetch address is out of range (R62). -/
  | opcodeMissing
  /-- Bit 5 clear and not one of the ten Dispatch Table bytes (R56). -/
  | unsupportedOpcode
  /-- Bit 5 set and not one of the five ALU bytes (R56). -/
  | unsupportedALUOperation
  /-- An operand byte the length requires is missing: its address is out of range (R65). -/
  | operandMissing
deriving DecidableEq, Repr

end Sys2Proof
end

