-- ==== Sys2Proof/Decode.lean ====
section
/-! DEFINITION. From bytes to an instruction and back (spec/30_encoding.md). The decoder is total on any
byte string and rejects by name; it answers the bytes after the instruction too, which are not part
of it and are never checked (R57). The encoder is written from the same table of R55. -/

namespace Sys2Proof

/-! ## The opcode byte -/

/-- The opcode map of R55. -/
def opcodeByte : Opcode → Byte
  | .hlt => 0x01
  | .ret => 0x11
  | .push => 0x45
  | .pop => 0x46
  | .prn => 0x47
  | .call => 0x50
  | .jmp => 0x54
  | .jeq => 0x55
  | .jne => 0x56
  | .ldi => 0x82
  | .add => 0xA0
  | .sub => 0xA1
  | .mul => 0xA2
  | .div => 0xA3
  | .cmp => 0xA7

/-- The five operations the ALU accepts (R64). -/
def aluOpcodes : List Opcode := [.add, .sub, .mul, .div, .cmp]

/-- The ten entries of the Dispatch Table (R55, R64). -/
def dispatchOpcodes : List Opcode :=
  [.hlt, .ret, .push, .pop, .prn, .call, .jmp, .jeq, .jne, .ldi]

/-- `AA = ir[7:6]` (R47). -/
def lengthField (ir : Byte) : BitVec 2 := ir.extractLsb' 6 2

/-- `B = ir[5]` (R47, R49). -/
def aluBit (ir : Byte) : Bool := ir.getLsbD 5

/-- `L = AA + 1` (R48, R61). For a supported opcode byte this is 1, 2 or 3. -/
def insnLength (ir : Byte) : Nat := (lengthField ir).toNat + 1

/-- The opcode of a list whose byte of R55 is the WHOLE byte fetched (R50). -/
def findOpcode (table : List Opcode) (ir : Byte) : Option Opcode :=
  table.find? (fun o => decide (opcodeByte o = ir))

/-- Dispatch on the opcode byte alone, before any operand byte is looked at (R61, R64). -/
def selectOpcode (ir : Byte) : Except DecodeError Opcode :=
  if aluBit ir then
    match findOpcode aluOpcodes ir with
    | some o => .ok o
    | none => .error .unsupportedALUOperation
  else
    match findOpcode dispatchOpcodes ir with
    | some o => .ok o
    | none => .error .unsupportedOpcode

/-! ## The operand bytes -/

/-- Format R: one register operand (R51). -/
def decodeOne (mk : Byte → Instr) : List Byte → Except DecodeError (Instr × List Byte)
  | ra :: rest => .ok (mk ra, rest)
  | [] => .error .operandMissing

/-- Formats RI and RR: two operand bytes (R51). -/
def decodeTwo (mk : Byte → Byte → Instr) : List Byte → Except DecodeError (Instr × List Byte)
  | op1 :: op2 :: rest => .ok (mk op1 op2, rest)
  | [_] => .error .operandMissing
  | [] => .error .operandMissing

/-- The operand bytes the format of the opcode has (R51, R55, R65). -/
def decodeOperands (o : Opcode) (rest : List Byte) : Except DecodeError (Instr × List Byte) :=
  match o with
  | .hlt => .ok (.hlt, rest)
  | .ret => .ok (.ret, rest)
  | .push => decodeOne .push rest
  | .pop => decodeOne .pop rest
  | .prn => decodeOne .prn rest
  | .call => decodeOne .call rest
  | .jmp => decodeOne .jmp rest
  | .jeq => decodeOne .jeq rest
  | .jne => decodeOne .jne rest
  | .ldi => decodeTwo .ldi rest
  | .add => decodeTwo .add rest
  | .sub => decodeTwo .sub rest
  | .mul => decodeTwo .mul rest
  | .div => decodeTwo .div rest
  | .cmp => decodeTwo .cmp rest

/-- The decoder: the opcode byte first, then its operand bytes (R61 to R65). A rejected opcode byte is
reported whatever follows it, and a missing operand byte only after the opcode byte is accepted (R69). -/
def decode : List Byte → Except DecodeError (Instr × List Byte)
  | [] => .error .opcodeMissing
  | ir :: rest =>
    match selectOpcode ir with
    | .error e => .error e
    | .ok o => decodeOperands o rest

/-! ## The encoder -/

/-- The opcode an instruction has (R55). -/
def opcodeOf : Instr → Opcode
  | .hlt => .hlt
  | .ret => .ret
  | .push _ => .push
  | .pop _ => .pop
  | .prn _ => .prn
  | .call _ => .call
  | .jmp _ => .jmp
  | .jeq _ => .jeq
  | .jne _ => .jne
  | .ldi _ _ => .ldi
  | .add _ _ => .add
  | .sub _ _ => .sub
  | .mul _ _ => .mul
  | .div _ _ => .div
  | .cmp _ _ => .cmp

/-- The operand bytes of an instruction, in order (R51). -/
def operandBytes : Instr → List Byte
  | .hlt => []
  | .ret => []
  | .push ra => [ra]
  | .pop ra => [ra]
  | .prn ra => [ra]
  | .call ra => [ra]
  | .jmp ra => [ra]
  | .jeq ra => [ra]
  | .jne ra => [ra]
  | .ldi ra imm8 => [ra, imm8]
  | .add ra rb => [ra, rb]
  | .sub ra rb => [ra, rb]
  | .mul ra rb => [ra, rb]
  | .div ra rb => [ra, rb]
  | .cmp ra rb => [ra, rb]

/-- The bytes of an instruction at rising addresses: the opcode byte, then the operand bytes (R38, R51). -/
def encode (i : Instr) : List Byte := opcodeByte (opcodeOf i) :: operandBytes i

/-! ## The opcode table's numbering -/

/-- The bytes of an instruction of `nbits` bits numbered as spec/opcode_table.json numbers them (bit 0
is bit 0 of the first byte), every bit above `nbits` zero, up to the longest instruction. -/
def tableBytes (nbits w : Nat) : List Byte :=
  [BitVec.ofNat 8 (w % 2 ^ nbits),
   BitVec.ofNat 8 (w % 2 ^ nbits / 256),
   BitVec.ofNat 8 (w % 2 ^ nbits / 65536)]

/-- The instruction the decoder reads from those bytes. -/
def decodeTableWord (nbits w : Nat) : Option Instr :=
  match decode (tableBytes nbits w) with
  | .ok (i, _) => some i
  | .error _ => none

end Sys2Proof
end

