-- ==== Sys2Proof/Machine/Fetch.lean ====
section
/-! DEFINITION. Fetch, the latches and the trace port (spec/40_cycle.md R61 to R65, R68), and placing an
instruction where the next step fetches it. -/

namespace Sys2Proof.Machine

/-- At most `n` bytes at rising addresses from `a`, up to the first address `MemRead` rejects. -/
def fetchBytes (m : Memory) (a : Nat) : Nat → List Byte
  | 0 => []
  | n + 1 =>
    match memRead m a with
    | .ok b => b :: fetchBytes m (a + 1) n
    | .error _ => []

/-- The bytes at `pc`, `pc + 1`, `pc + 2` that exist. The decoder takes those the instruction's length
requires and no others (R65): a missing one it does not need is no fault. -/
def fetchWindow (s : State) : List Byte := fetchBytes s.mem s.pc.toNat Config.maxInsnLen

/-- The fault of a byte string that is no instruction (R62, R64, R65). -/
def decodeFault : DecodeError → FaultReason
  | .opcodeMissing => .outOfBoundsAccess
  | .unsupportedOpcode => .unsupportedOpcode
  | .unsupportedALUOperation => .unsupportedALUOperation
  | .operandMissing => .outOfBoundsAccess

/-- The latches after the reads of one fetch (R61, R62, R65): IR is loaded with the opcode byte, and
op1, op2 with the bytes a supported opcode's length requires, in order; a latch whose byte is not read
keeps its value. DESIGN CHOICE (log 3). -/
def loadLatches (bytes : List Byte) (l : Latches) : Latches :=
  match bytes with
  | [] => l
  | ir :: ops =>
    match selectOpcode ir with
    | .error _ => { l with ir := ir }
    | .ok _ =>
      match ops.take (insnLength ir - 1) with
      | [] => { l with ir := ir }
      | [op1] => { l with ir := ir, op1 := op1 }
      | op1 :: op2 :: _ => { ir := ir, op1 := op1, op2 := op2 }

/-- Load the latches of a state. -/
def latch (bytes : List Byte) (s : State) : State := { s with latches := loadLatches bytes s.latches }

/-- A byte as the trace port shows it: the byte in memory, or 0x00 at 256 or above (R31, R68). -/
def traceByte (m : Memory) (a : Nat) : Byte := if a < Config.memSize then memGet m a else 0x00

/-- The tuple `(pc, ir, op1, op2, R0..R7)` of the instruction at `pc` (R31, R68); an operand byte the
instruction does not use is shown too. -/
def traceTuple (s : State) : TraceTuple where
  pc := s.pc
  ir := traceByte s.mem s.pc.toNat
  op1 := traceByte s.mem (s.pc.toNat + 1)
  op2 := traceByte s.mem (s.pc.toNat + 2)
  regs := s.regs

/-- `Trace(pc, ir, op1, op2, x[0..7])` (R61, R68). -/
def present (s : State) : State := { s with trace := s.trace ++ [traceTuple s] }

/-- The address an instruction placed from outside goes to: PC where the longest instruction fits there,
else address 0 (log 5). -/
def placeAt (s : State) : PcWord :=
  if s.pc.toNat + Config.maxInsnLen ≤ Config.memSize then s.pc else 0

/-- `s` with the bytes at the place the next step fetches from, PC there, and `Running`. -/
def placeInstruction (bytes : List Byte) (s : State) : State :=
  setStatus .running (setPc (placeAt s) (setMem (memStore s.mem (placeAt s).toNat bytes) s))

end Sys2Proof.Machine
end

