-- ==== Sys2Proof/Machine/Step.lean ====
section
/-! DEFINITION. The step of spec/40_cycle.md R61. -/

namespace Sys2Proof.Machine

/-- One step (R60, R61): a stopped engine does nothing (R70; log 2); a running one fetches and decodes,
faults by R69's order where it cannot, and else presents the trace tuple and executes. -/
def step (s : State) : Host.Outcome State Fault Refusal :=
  match s.status with
  | .halted => .next s
  | .faulted _ => .next s
  | .running =>
    match decode (fetchWindow s) with
    | .error e => .next (raiseFault (decodeFault e) (latch (fetchWindow s) s))
    | .ok (i, _) => exec i (latch (fetchWindow s) (present s))

/-- `s` with an instruction of `nbits` bits, numbered as the opcode table numbers them, where the next
step fetches it (log 5): the bytes above `nbits` are zero, up to the longest instruction. -/
def State.withFetchWord (s : State) (nbits w : Nat) : State := placeInstruction (tableBytes nbits w) s

end Sys2Proof.Machine
end

