-- ==== Sys2Proof/Machine/Ports.lean ====
section
/-! DEFINITION. The ports of the block beside `step` (spec/10_state.md R29): `load`, `reset`, `status`,
`inspect`. The ports `out` and `trace` are streams and stand in State. -/

namespace Sys2Proof.Machine

/-- What the loader gives the block: an image, or nothing because "the source cannot be opened" (R109). -/
abbrev LoaderResult := Option (List Byte)

/-- The `load` port (R108, R109): reset, then byte `k` of the image at address `k`, then `Running`. An
image longer than the memory is refused; a loader that found no program leaves no run (R94; log 11). -/
def load (image : LoaderResult) : Host.Outcome State Fault Refusal :=
  match image with
  | none => .fault .programNotFound
  | some bytes =>
    if bytes.length ≤ Config.memSize then
      .next (setStatus .running (setMem (memStore State.reset.mem Config.loadBase bytes) State.reset))
    else .refused (.imageTooLong bytes.length)

/-- The `reset` port (R111): between any two steps, whatever the status; all state is discarded and the
image the host supplies is loaded as in R108. -/
def resetInput (_s : State) (image : LoaderResult) : Host.Outcome State Fault Refusal := load image

/-- The 4-bit code of the `status` port (R92, R93). -/
def statusCode : RunStatus → BitVec 4
  | .running => 0
  | .halted => 1
  | .faulted .divisionByZero => 2
  | .faulted .unsupportedOpcode => 3
  | .faulted .unsupportedALUOperation => 4
  | .faulted .outOfBoundsAccess => 5
  | .faulted .invalidRegister => 6

/-- What `inspect` gives read access to (R29, R32). -/
structure Inspection where
  regs : RegFile
  pc : PcWord
  sp : Byte
  fl : Byte
  mem : Memory
deriving DecidableEq, Repr

/-- The `inspect` port (R29, R32): the architectural state as the last completed instruction left it,
readable when the status is `Halted` or `Faulted`; nothing while `Running` (log 9). -/
def inspect (s : State) : Option Inspection :=
  match s.status with
  | .running => none
  | .halted => some { regs := s.regs, pc := s.pc, sp := s.sp, fl := s.fl, mem := s.mem }
  | .faulted _ => some { regs := s.regs, pc := s.pc, sp := s.sp, fl := s.fl, mem := s.mem }

end Sys2Proof.Machine
end

