-- ==== Sys2Proof/WellFormed.lean ====
section
/-! DEFINITION. Which instructions are legal (spec/30_encoding.md R57): every immediate is, and a
register operand exactly when it is 0 to 7. -/

namespace Sys2Proof

/-- A byte that names a register (R15, R54). -/
def isRegister (b : Byte) : Bool := decide (b.toNat < Config.numGpr)

/-- The register operands of an instruction, in the order they are checked: `ra`, then `rb` (R69). -/
def registerOperands : Instr → List Byte
  | .hlt => []
  | .ret => []
  | .push ra => [ra]
  | .pop ra => [ra]
  | .prn ra => [ra]
  | .call ra => [ra]
  | .jmp ra => [ra]
  | .jeq ra => [ra]
  | .jne ra => [ra]
  | .ldi ra _ => [ra]
  | .add ra rb => [ra, rb]
  | .sub ra rb => [ra, rb]
  | .mul ra rb => [ra, rb]
  | .div ra rb => [ra, rb]
  | .cmp ra rb => [ra, rb]

/-- Every register operand names a register (R57). -/
def wellFormed (i : Instr) : Bool := (registerOperands i).all isRegister

end Sys2Proof
end

