-- ==== Sys2Proof/Safety.lean ====
section
/-! DEFINITION. What holds of every state a run can reach, and the vocabulary claims use to say what an
instruction leaves alone. -/

namespace Sys2Proof.Machine

/-- FL holds no flag or exactly one, and its bits 7:3 are 0 (spec/10_state.md R24, R25, R26). -/
def flLegal (fl : Byte) : Prop := fl = 0 ∨ fl = 1 ∨ fl = 2 ∨ fl = 4

/-- The invariant of the machine. -/
structure Inv (s : State) : Prop where
  /-- The memory is in its one canonical form, inside the 256 bytes (R34). -/
  mem_wf : s.mem.wf = true
  /-- PC takes only the values 0 to 256 (R18). -/
  pc_le : s.pc.toNat ≤ 256
  /-- FL is legal (R24, R25). -/
  fl_legal : flLegal s.fl
  /-- Every byte sent on `out` belongs to an instruction that was traced (R30, R31). -/
  out_le_trace : s.out.length ≤ s.trace.length

/-- The operand byte that names R`a` (R52). -/
def regByte (a : Fin 8) : Byte := BitVec.ofNat 8 a.val

/-- The table of spec/10_state.md R14: the register operands an instruction reads. -/
def registersRead : Instr → List Byte
  | .ldi _ _ => []
  | .prn ra => [ra]
  | .hlt => []
  | .push ra => [ra]
  | .pop _ => []
  | .call ra => [ra]
  | .ret => []
  | .jmp ra => [ra]
  | .jeq ra => [ra]
  | .jne ra => [ra]
  | .add ra rb => [ra, rb]
  | .sub ra rb => [ra, rb]
  | .mul ra rb => [ra, rb]
  | .div ra rb => [ra, rb]
  | .cmp ra rb => [ra, rb]

/-- The table of spec/10_state.md R14: the register operands an instruction writes. -/
def registersWritten : Instr → List Byte
  | .ldi ra _ => [ra]
  | .prn _ => []
  | .hlt => []
  | .push _ => []
  | .pop ra => [ra]
  | .call _ => []
  | .ret => []
  | .jmp _ => []
  | .jeq _ => []
  | .jne _ => []
  | .add ra _ => [ra]
  | .sub ra _ => [ra]
  | .mul ra _ => [ra]
  | .div ra _ => [ra]
  | .cmp _ _ => []

/-- The value of the register a byte names, 0 for a byte that names none. -/
def operandValue (s : State) (b : Byte) : Nat :=
  if h : b.toNat < 8 then (getReg s ⟨b.toNat, h⟩).toNat else 0

/-- Point 5 of spec/40_cycle.md R69, with the conditions of spec/60_exceptions.md R92: the fault of an
instruction whose register operands are all registers, if any. -/
def ownFault (i : Instr) (s : State) : Option FaultReason :=
  match i with
  | .hlt => none
  | .ret => if s.sp = 0xFF then some .outOfBoundsAccess else none
  | .push _ => if s.sp = 0x00 then some .outOfBoundsAccess else none
  | .pop _ => if s.sp = 0xFF then some .outOfBoundsAccess else none
  | .prn _ => none
  | .call _ => if 255 < s.pc.toNat + 2 ∨ s.sp = 0x00 then some .outOfBoundsAccess else none
  | .jmp _ => none
  | .jeq _ => none
  | .jne _ => none
  | .ldi _ _ => none
  | .add _ _ => none
  | .sub _ _ => none
  | .mul _ _ => none
  | .div _ rb => if operandValue s rb = 0 then some .divisionByZero else none
  | .cmp _ _ => none

/-- Points 4 and 5 of R69: the fault a decoded instruction raises, if any; the register operands come
first. -/
def executionFault (i : Instr) (s : State) : Option FaultReason :=
  if wellFormed i then ownFault i s else some .invalidRegister

/-- Where PC stands in `t` after an instruction that did not fault, executed in `s` (R66, R86): past a
straight-line instruction by its length, at the target of a transfer, past an untaken branch by 2. Past
HLT by 1 is the spec's decision D13 (R81), not R66's. -/
def PcAfter (i : Instr) (s t : State) : Prop :=
  match i with
  | .call ra => t.pc.toNat = operandValue s ra
  | .jmp ra => t.pc.toNat = operandValue s ra
  | .ret => t.pc.toNat = (memGet s.mem s.sp.toNat).toNat
  | .jeq ra => if s.fl.getLsbD 0 then t.pc.toNat = operandValue s ra else t.pc = s.pc + 2
  | .jne ra => if s.fl.getLsbD 0 then t.pc = s.pc + 2 else t.pc.toNat = operandValue s ra
  | i => t.pc = s.pc + BitVec.ofNat 9 (encode i).length

/-- Every byte of memory reads the same. -/
def SameMemory (s t : State) : Prop := ∀ a : Nat, memGet t.mem a = memGet s.mem a

/-- Every byte of memory but the one at `addr` reads the same. -/
def SameMemoryBut (addr : Nat) (s t : State) : Prop :=
  ∀ a : Nat, a ≠ addr → memGet t.mem a = memGet s.mem a

/-- R0 to R7 hold the same values. -/
def SameRegs (s t : State) : Prop := ∀ j : Fin 8, getReg t j = getReg s j

/-- R0 to R7 but R`a` hold the same values. -/
def SameRegsBut (a : Fin 8) (s t : State) : Prop := ∀ j : Fin 8, j ≠ a → getReg t j = getReg s j

/-- The trace stream and the latches: no instruction's own effect reaches them (R28, R68). -/
def SameTrace (s t : State) : Prop := t.trace = s.trace ∧ t.latches = s.latches

/-- The architectural state and the `out` stream are the same: what a fault leaves (R96). -/
structure SameArch (s t : State) : Prop where
  regs : t.regs = s.regs
  pc : t.pc = s.pc
  sp : t.sp = s.sp
  fl : t.fl = s.fl
  mem : t.mem = s.mem
  out : t.out = s.out

end Sys2Proof.Machine
end

