-- ==== Sys2Proof/Certificates/Slice0/Obligations.lean ====
section
/-! DEFINITION. The statements for the provers. "Decision D<n>" is the spec's own choice, a row of
spec/92_eei_decisions.md; "log <n>" is notes/assumptions/<n>.md. -/

open Sys2Proof Sys2Proof.Machine

/-! ## Encoding -/

/-- spec/30_encoding.md section 3: each of the 15 opcode bytes, with every value of its operand bytes and
whatever follows. The eleven values other than LDI, ADD, PRN, HLT are the spec's decision D5 (log 7). -/
def Obligations.OpcodeBytesDecode : Prop :=
  ∀ (p q : Byte) (rest : List Byte),
    decode (0b00000001 :: rest) = .ok (.hlt, rest) ∧
    decode (0b00010001 :: rest) = .ok (.ret, rest) ∧
    decode (0b01000101 :: p :: rest) = .ok (.push p, rest) ∧
    decode (0b01000110 :: p :: rest) = .ok (.pop p, rest) ∧
    decode (0b01000111 :: p :: rest) = .ok (.prn p, rest) ∧
    decode (0b01010000 :: p :: rest) = .ok (.call p, rest) ∧
    decode (0b01010100 :: p :: rest) = .ok (.jmp p, rest) ∧
    decode (0b01010101 :: p :: rest) = .ok (.jeq p, rest) ∧
    decode (0b01010110 :: p :: rest) = .ok (.jne p, rest) ∧
    decode (0b10000010 :: p :: q :: rest) = .ok (.ldi p q, rest) ∧
    decode (0b10100000 :: p :: q :: rest) = .ok (.add p q, rest) ∧
    decode (0b10100001 :: p :: q :: rest) = .ok (.sub p q, rest) ∧
    decode (0b10100010 :: p :: q :: rest) = .ok (.mul p q, rest) ∧
    decode (0b10100011 :: p :: q :: rest) = .ok (.div p q, rest) ∧
    decode (0b10100111 :: p :: q :: rest) = .ok (.cmp p q, rest)

/-- Decoding an encoded instruction gives it back, with every operand byte at every value (well-formed or
not) and whatever bytes follow, which are answered untouched. -/
def Obligations.DecodeOfEncode : Prop :=
  ∀ (i : Instr) (rest : List Byte), decode (encode i ++ rest) = .ok (i, rest)

/-- The other direction: a byte string is read in one way only, so no bit of an encoding is dropped. -/
def Obligations.EncodeOfDecode : Prop :=
  ∀ (bytes rest : List Byte) (i : Instr), decode bytes = .ok (i, rest) → bytes = encode i ++ rest

/-- R58: the length of a supported instruction is bits 7:6 of its opcode byte plus one, 1 to 3, and its
operand bytes are exactly the bytes that follow. -/
def Obligations.LengthFromOpcodeByte : Prop :=
  ∀ (ir : Byte) (tail rest : List Byte) (i : Instr), decode (ir :: tail) = .ok (i, rest) →
    (encode i).length = ir.toNat / 64 + 1 ∧ ir.toNat / 64 ≤ 2 ∧ rest = tail.drop (ir.toNat / 64) ∧
      ∀ (tail' : List Byte), ir.toNat / 64 ≤ tail'.length →
        ∃ j, decode (ir :: tail') = .ok (j, tail'.drop (ir.toNat / 64)) ∧
          (encode j).length = ir.toNat / 64 + 1

/-- spec/30_encoding.md section 4: a byte is no opcode exactly when it is not one of the 15; bit 5 says
by which name it is rejected, whatever bytes follow; there are 118 and 123 such bytes (decisions D14, D15). -/
def Obligations.UnsupportedBytesRejected : Prop :=
  (∀ (ir : Byte) (tail : List Byte),
    (decode (ir :: tail) = .error .unsupportedOpcode ↔
      ir.getLsbD 5 = false ∧
        ir ∉ ([0x01, 0x11, 0x45, 0x46, 0x47, 0x50, 0x54, 0x55, 0x56, 0x82] : List Byte)) ∧
    (decode (ir :: tail) = .error .unsupportedALUOperation ↔
      ir.getLsbD 5 = true ∧ ir ∉ ([0xA0, 0xA1, 0xA2, 0xA3, 0xA7] : List Byte))) ∧
  ((List.range 256).countP
    (fun n => decide (selectOpcode (BitVec.ofNat 8 n) = .error .unsupportedOpcode))) = 118 ∧
  ((List.range 256).countP
    (fun n => decide (selectOpcode (BitVec.ofNat 8 n) = .error .unsupportedALUOperation))) = 123

/-! ## The step -/

/-- The fetch sees the memory: the bytes at `pc`, `pc + 1`, `pc + 2`, up to the first address above 255. -/
def Obligations.FetchReadsMemoryAtPc : Prop :=
  ∀ (s : State) (k : Nat),
    (fetchWindow s)[k]? =
      if k < 3 ∧ s.pc.toNat + k < 256 then some (memGet s.mem (s.pc.toNat + k)) else none

/-- A step of a running engine is `exec` of the decoded instruction, on the state whose trace has one more
tuple (spec/40_cycle.md section 6; a byte at 256 or above as 0x00 is the spec's decision D21) and whose
latches hold the bytes read; that a latch whose byte the instruction does not have keeps its value is the
model's choice (log 3). Nothing else is added: the instruction moves PC itself. -/
def Obligations.StepRunsDecodedInstruction : Prop :=
  ∀ (s : State) (i : Instr) (rest : List Byte), s.status = .running →
    decode (fetchWindow s) = .ok (i, rest) →
    step s = exec i
      { s with
        trace := s.trace ++
          [{ pc := s.pc
             ir := memGet s.mem s.pc.toNat
             op1 := if s.pc.toNat + 1 < 256 then memGet s.mem (s.pc.toNat + 1) else 0x00
             op2 := if s.pc.toNat + 2 < 256 then memGet s.mem (s.pc.toNat + 2) else 0x00
             regs := s.regs }]
        latches := loadLatches (fetchWindow s) s.latches }

/-- spec/40_cycle.md section 8 (decision D22; log 2): a stopped engine does nothing, however often it is
asked to step. -/
def Obligations.StoppedEngineDoesNothing : Prop :=
  ∀ (s : State) (k : Nat), s.status ≠ .running → Host.Core.run core k s = .next s

/-- spec/40_cycle.md section 2: the opcode byte read at PC goes to IR; with PC at 256 the read faults with
OutOfBoundsAccess and PC stays 256 (decision D6). That nothing but the status changes there is decision D12;
that IR is loaded in a step that then faults, and that a fetch at 256 keeps the latches, is the model's
choice (log 3). -/
def Obligations.OpcodeFetch : Prop :=
  ∀ (s : State), s.status = .running →
    (s.pc.toNat < 256 → ∃ t, step s = .next t ∧ t.latches.ir = memGet s.mem s.pc.toNat) ∧
    (s.pc.toNat = 256 →
      step s = .next { s with status := .faulted .outOfBoundsAccess })

/-- spec/40_cycle.md section 7, points 1 to 3 (decision D16): what a running engine faults with before it
executes, in order; each such fault leaves the architectural state and presents no tuple. -/
def Obligations.FetchFaultsInOrder : Prop :=
  ∀ (s : State), s.status = .running →
    (256 ≤ s.pc.toNat → ∃ t, step s = .next t ∧ t.status = .faulted .outOfBoundsAccess ∧
      SameArch s t ∧ t.trace = s.trace) ∧
    (s.pc.toNat < 256 → (memGet s.mem s.pc.toNat).getLsbD 5 = true →
      memGet s.mem s.pc.toNat ∉ ([0xA0, 0xA1, 0xA2, 0xA3, 0xA7] : List Byte) →
      ∃ t, step s = .next t ∧ t.status = .faulted .unsupportedALUOperation ∧
        SameArch s t ∧ t.trace = s.trace) ∧
    (s.pc.toNat < 256 → (memGet s.mem s.pc.toNat).getLsbD 5 = false →
      memGet s.mem s.pc.toNat ∉
        ([0x01, 0x11, 0x45, 0x46, 0x47, 0x50, 0x54, 0x55, 0x56, 0x82] : List Byte) →
      ∃ t, step s = .next t ∧ t.status = .faulted .unsupportedOpcode ∧
        SameArch s t ∧ t.trace = s.trace) ∧
    (s.pc.toNat < 256 →
      memGet s.mem s.pc.toNat ∈ ([0x01, 0x11, 0x45, 0x46, 0x47, 0x50, 0x54, 0x55, 0x56, 0x82,
        0xA0, 0xA1, 0xA2, 0xA3, 0xA7] : List Byte) →
      256 < s.pc.toNat + (memGet s.mem s.pc.toNat).toNat / 64 + 1 →
      ∃ t, step s = .next t ∧ t.status = .faulted .outOfBoundsAccess ∧
        SameArch s t ∧ t.trace = s.trace)

/-- Points 4 and 5 of the same order, with the conditions of spec/60_exceptions.md section 1: an
instruction that reaches execution faults exactly when a register operand is above 7, or else on its own
condition (decisions D8, D10, D11, D16), and then only the status changes. -/
def Obligations.ExecutionFaultsExactly : Prop :=
  ∀ (i : Instr) (s : State), s.status = .running →
    match executionFault i s with
    | some reason => exec i s = .next { s with status := .faulted reason }
    | none => ∃ t, exec i s = .next t ∧ t.status = (if i = .hlt then .halted else .running)

/-- spec/60_exceptions.md section 2 (decision D12): a step that faults leaves R0 to R7, FL, SP, PC, memory
and the `out` stream as they were, and the trace as it was or with the instruction's own tuple. -/
def Obligations.FaultsArePrecise : Prop :=
  ∀ (s t : State) (reason : FaultReason), s.status = .running → step s = .next t →
    t.status = .faulted reason →
    SameArch s t ∧ (t.trace = s.trace ∨ t.trace = s.trace ++ [traceTuple s])

/-- Every step ends in a next state: the model never stops and never refuses (log 1). -/
def Obligations.EveryStepHasNextState : Prop :=
  ∀ (s : State), ∃ t, step s = .next t

/-- spec/40_cycle.md section 8: a running engine becomes `Halted` exactly by executing HLT; otherwise it
goes on running or faults. -/
def Obligations.HaltedExactlyByHlt : Prop :=
  ∀ (s t : State), s.status = .running → step s = .next t →
    (t.status = .halted ↔ ∃ rest, decode (fetchWindow s) = .ok (.hlt, rest))

/-- Every step keeps the invariant: canonical memory inside 256 bytes, PC at most 256 (R18), FL with at
most one flag and zero elsewhere (R24, R25), no more bytes on `out` than traced instructions. -/
def Obligations.StepKeepsInv : Prop :=
  ∀ (s t : State), Inv s → step s = .next t → Inv t

/-- The invariant holds at reset. -/
def Obligations.ResetHasInv : Prop := Inv State.reset

/-- The invariant holds after any number of steps from the reset state with any image loaded. -/
def Obligations.InvAfterLoadAndRun : Prop :=
  ∀ (image : List Byte) (k : Nat) (s t : State), load (some image) = .next s →
    Host.Core.run core k s = .next t → Inv t

/-! ## Whole-machine rules over all instructions -/

/-- R25: FL is written by CMP only, which leaves exactly one flag; it is read by JEQ and JNE only, and only
its E bit: with any other FL of the same E (for any other instruction, any other FL) the instruction ends
the same but for FL itself. -/
def Obligations.FlagsWrittenByCmpReadByBranches : Prop :=
  (∀ (i : Instr) (s t : State), exec i s = .next t → (∀ ra rb, i ≠ .cmp ra rb) → t.fl = s.fl) ∧
  (∀ (a b : Fin 8) (s : State), ∃ t, exec (.cmp (regByte a) (regByte b)) s = .next t ∧
    (t.fl = 0b00000001 ∨ t.fl = 0b00000010 ∨ t.fl = 0b00000100)) ∧
  (∀ (i : Instr) (s t : State) (f : Byte),
    ((∃ ra, i = .jeq ra ∨ i = .jne ra) → f.getLsbD 0 = s.fl.getLsbD 0) → exec i s = .next t →
    ∃ u, exec i { s with fl := f } = .next u ∧ { u with fl := 0 } = { t with fl := 0 } ∧
      ((∀ ra rb, i ≠ .cmp ra rb) → u.fl = f) ∧
      ((∃ ra rb, i = .cmp ra rb) → wellFormed i = true → u.fl = t.fl))

/-- R14: an instruction writes no register but those its row of the table lists, and its effect does not
depend on a register the row does not list as read. -/
def Obligations.RegistersReadAndWritten : Prop :=
  (∀ (i : Instr) (s t : State) (j : Fin 8), exec i s = .next t → regByte j ∉ registersWritten i →
    getReg t j = getReg s j) ∧
  (∀ (i : Instr) (s t : State) (j : Fin 8) (v : Byte), exec i s = .next t →
    regByte j ∉ registersRead i →
    ∃ u, exec i (setReg j v s) = .next u ∧ setReg j 0 u = setReg j 0 t ∧
      (regByte j ∈ registersWritten i → (∃ r, u.status = .faulted r) ∨ u = t))

/-- R37: only PUSH and CALL write memory, one byte at the decremented SP; only POP and RET read it as data,
the byte at SP; and an instruction is fetched from its own bytes and no others. -/
def Obligations.MemoryAccesses : Prop :=
  (∀ (i : Instr) (s t : State) (a : Nat), s.mem.wf = true → exec i s = .next t →
    memGet t.mem a ≠ memGet s.mem a →
    (∃ ra, i = .push ra ∨ i = .call ra) ∧ t.sp = s.sp - 1 ∧ a = (s.sp - 1).toNat) ∧
  (∀ (i : Instr) (s t : State) (m : Memory), exec i s = .next t →
    ((i = .ret ∨ ∃ ra, i = .pop ra) → memGet m s.sp.toNat = memGet s.mem s.sp.toNat) →
    ∃ u, exec i { s with mem := m } = .next u ∧ { u with mem := [] } = { t with mem := [] }) ∧
  (∀ (i : Instr) (s : State) (m : Memory) (rest : List Byte), decode (fetchWindow s) = .ok (i, rest) →
    (∀ k, k < (encode i).length → memGet m (s.pc.toNat + k) = memGet s.mem (s.pc.toNat + k)) →
    ∃ rest', decode (fetchWindow { s with mem := m }) = .ok (i, rest'))

/-- spec/10_state.md section 3, spec/43_stack.md (decision D10 for the ends): an instruction that completes
moves SP by exactly one, down for PUSH and CALL and up for POP and RET, as numbers, so never past an end;
every other one leaves SP, and so does a fault (decision D12). -/
def Obligations.StackPointerMoves : Prop :=
  ∀ (i : Instr) (s t : State), s.status = .running → exec i s = .next t →
    ((∃ r, t.status = .faulted r) → t.sp = s.sp) ∧
    ((∀ r, t.status ≠ .faulted r) →
      match i with
      | .push _ => t.sp.toNat + 1 = s.sp.toNat
      | .call _ => t.sp.toNat + 1 = s.sp.toNat
      | .pop _ => t.sp.toNat = s.sp.toNat + 1
      | .ret => t.sp.toNat = s.sp.toNat + 1
      | _ => t.sp = s.sp)

/-- spec/40_cycle.md section 5 (R66): where PC goes when an instruction that started in a running engine
did not fault, by the instruction's own effect and over the whole step, which adds nothing to it. Past HLT
by 1 is the spec's decision D13 (log 8); E is bit 0 of FL by decision D4 (log 7). -/
def Obligations.PcAfterInstruction : Prop :=
  (∀ (i : Instr) (s t : State), s.status = .running → exec i s = .next t →
    (∀ r, t.status ≠ .faulted r) → PcAfter i s t) ∧
  (∀ (i : Instr) (rest : List Byte) (s t : State), s.status = .running →
    decode (fetchWindow s) = .ok (i, rest) → step s = .next t →
    (∀ r, t.status ≠ .faulted r) → PcAfter i s t)

/-- spec/10_state.md section 7 (decision D18): a PRN that completes sends one byte on `out`, the value of its
register; every other instruction, and a fault (decision D12), sends nothing. -/
def Obligations.OutOnlyByPrn : Prop :=
  ∀ (i : Instr) (s t : State), s.status = .running → exec i s = .next t →
    ((∃ r, t.status = .faulted r) → t.out = s.out) ∧
    ((∀ r, t.status ≠ .faulted r) →
      match i with
      | .prn ra => ∃ a : Fin 8, ra = regByte a ∧ t.out = s.out ++ [getReg s a]
      | _ => t.out = s.out)

/-- spec/40_cycle.md section 6 (decision D21): a step presents one tuple, taken before the instruction's
writes, exactly when the instruction's bytes were fetched and decoded, whether it then faults or not. -/
def Obligations.TraceOfStep : Prop :=
  ∀ (s t : State), s.status = .running → step s = .next t →
    ((∃ i rest, decode (fetchWindow s) = .ok (i, rest)) → t.trace = s.trace ++ [traceTuple s]) ∧
    ((∃ e, decode (fetchWindow s) = .error e) → t.trace = s.trace)

/-! ## ALU -/

/-- R74: ADD. Its encoding, its result modulo 256, its frame, InvalidRegister on a byte above 7 (decision
D8), and OutOfBoundsAccess where its operand bytes do not fit in the memory. -/
def Obligations.AddResult : Prop :=
  (∀ (p q : Byte) (rest : List Byte), decode (0xA0 :: p :: q :: rest) = .ok (.add p q, rest)) ∧
  (∀ (a b : Fin 8) (s : State), ∃ t, exec (.add (regByte a) (regByte b)) s = .next t ∧
    (getReg t a).toNat = ((getReg s a).toNat + (getReg s b).toNat) % 256 ∧ SameRegsBut a s t ∧
    t.pc = s.pc + 3 ∧ t.sp = s.sp ∧ t.fl = s.fl ∧ t.status = s.status ∧ SameMemory s t ∧
    t.out = s.out ∧ SameTrace s t) ∧
  (∀ (p q : Byte) (s : State), 7 < p.toNat ∨ 7 < q.toNat →
    exec (.add p q) s = .next { s with status := .faulted .invalidRegister }) ∧
  (∀ (s : State), s.status = .running → memGet s.mem s.pc.toNat = 0xA0 → s.pc = 254 ∨ s.pc = 255 →
    ∃ t, step s = .next t ∧ t.status = .faulted .outOfBoundsAccess ∧ SameArch s t)

/-- spec/41_alu.md section 2, SUB: the non-negative remainder modulo 256 of the difference. -/
def Obligations.SubResult : Prop :=
  ∀ (a b : Fin 8) (s : State), ∃ t, exec (.sub (regByte a) (regByte b)) s = .next t ∧
    ((getReg t a).toNat : Int) = (((getReg s a).toNat : Int) - ((getReg s b).toNat : Int)) % 256 ∧
    SameRegsBut a s t ∧ t.pc = s.pc + 3 ∧ t.sp = s.sp ∧ t.fl = s.fl ∧ t.status = s.status ∧
    SameMemory s t ∧ t.out = s.out ∧ SameTrace s t

/-- spec/41_alu.md section 2, MUL: the low 8 bits of the product. -/
def Obligations.MulResult : Prop :=
  ∀ (a b : Fin 8) (s : State), ∃ t, exec (.mul (regByte a) (regByte b)) s = .next t ∧
    (getReg t a).toNat = ((getReg s a).toNat * (getReg s b).toNat) % 256 ∧ SameRegsBut a s t ∧
    t.pc = s.pc + 3 ∧ t.sp = s.sp ∧ t.fl = s.fl ∧ t.status = s.status ∧ SameMemory s t ∧
    t.out = s.out ∧ SameTrace s t

/-- spec/41_alu.md section 2, DIV (decision D9): the unsigned quotient `q` with `q * y ≤ x < (q + 1) * y`;
a divisor of 0 faults and mutates no register. -/
def Obligations.DivResult : Prop :=
  ∀ (a b : Fin 8) (s : State),
    ((getReg s b).toNat ≠ 0 → ∃ t, exec (.div (regByte a) (regByte b)) s = .next t ∧
      (getReg t a).toNat * (getReg s b).toNat ≤ (getReg s a).toNat ∧
      (getReg s a).toNat < ((getReg t a).toNat + 1) * (getReg s b).toNat ∧ SameRegsBut a s t ∧
      t.pc = s.pc + 3 ∧ t.sp = s.sp ∧ t.fl = s.fl ∧ t.status = s.status ∧ SameMemory s t ∧
      t.out = s.out ∧ SameTrace s t) ∧
    ((getReg s b).toNat = 0 → exec (.div (regByte a) (regByte b)) s =
      .next { s with status := .faulted .divisionByZero })

/-- spec/41_alu.md section 2, CMP (FL layout: decision D4, log 7): E, G or L alone, unsigned; no register
changes. -/
def Obligations.CmpResult : Prop :=
  ∀ (a b : Fin 8) (s : State), ∃ t, exec (.cmp (regByte a) (regByte b)) s = .next t ∧
    (t.fl = 0b00000001 ↔ (getReg s a).toNat = (getReg s b).toNat) ∧
    (t.fl = 0b00000010 ↔ (getReg s a).toNat > (getReg s b).toNat) ∧
    (t.fl = 0b00000100 ↔ (getReg s a).toNat < (getReg s b).toNat) ∧
    SameRegs s t ∧ t.pc = s.pc + 3 ∧ t.sp = s.sp ∧ t.status = s.status ∧ SameMemory s t ∧
    t.out = s.out ∧ SameTrace s t

/-! ## Load, print, halt -/

/-- R79: LDI. Its encoding, the immediate as it stands, its frame, InvalidRegister on `op1 > 7` (decision
D8), and OutOfBoundsAccess for an LDI whose opcode is at 254 or 255. -/
def Obligations.LdiResult : Prop :=
  (∀ (p q : Byte) (rest : List Byte), decode (0x82 :: p :: q :: rest) = .ok (.ldi p q, rest)) ∧
  (∀ (a : Fin 8) (imm8 : Byte) (s : State), ∃ t, exec (.ldi (regByte a) imm8) s = .next t ∧
    getReg t a = imm8 ∧ SameRegsBut a s t ∧ t.pc = s.pc + 3 ∧ t.sp = s.sp ∧ t.fl = s.fl ∧
    t.status = s.status ∧ SameMemory s t ∧ t.out = s.out ∧ SameTrace s t) ∧
  (∀ (p imm8 : Byte) (s : State), 7 < p.toNat →
    exec (.ldi p imm8) s = .next { s with status := .faulted .invalidRegister }) ∧
  (∀ (s : State), s.status = .running → memGet s.mem s.pc.toNat = 0x82 → s.pc = 254 ∨ s.pc = 255 →
    ∃ t, step s = .next t ∧ t.status = .faulted .outOfBoundsAccess ∧ SameArch s t)

/-- spec/42_load_print_halt.md, PRN (decision D18): one byte on `out`, after those sent before. -/
def Obligations.PrnResult : Prop :=
  ∀ (a : Fin 8) (s : State), ∃ t, exec (.prn (regByte a)) s = .next t ∧
    t.out = s.out ++ [getReg s a] ∧ SameRegs s t ∧ t.pc = s.pc + 2 ∧ t.sp = s.sp ∧ t.fl = s.fl ∧
    t.status = s.status ∧ SameMemory s t ∧ SameTrace s t

/-- spec/42_load_print_halt.md, HLT (decision D13): the status becomes `Halted`, PC advances by 1, all else
is kept and then readable on `inspect`. -/
def Obligations.HltResult : Prop :=
  ∀ (s : State), ∃ t, exec .hlt s = .next t ∧ t.status = .halted ∧ t.pc = s.pc + 1 ∧
    SameRegs s t ∧ t.sp = s.sp ∧ t.fl = s.fl ∧ SameMemory s t ∧ t.out = s.out ∧ SameTrace s t ∧
    inspect t = some { regs := s.regs, pc := s.pc + 1, sp := s.sp, fl := s.fl, mem := s.mem }

/-! ## Stack -/

/-- spec/43_stack.md, PUSH (decision D10 at SP = 0x00): SP decrements first, then the register's value is
written at the new SP; every other byte reads as before. -/
def Obligations.PushResult : Prop :=
  ∀ (a : Fin 8) (s : State), s.mem.wf = true →
    (s.sp ≠ 0x00 → ∃ t, exec (.push (regByte a)) s = .next t ∧ t.sp.toNat = s.sp.toNat - 1 ∧
      memGet t.mem (s.sp.toNat - 1) = getReg s a ∧ SameMemoryBut (s.sp.toNat - 1) s t ∧
      SameRegs s t ∧ t.pc = s.pc + 2 ∧ t.fl = s.fl ∧ t.status = s.status ∧ t.out = s.out ∧
      SameTrace s t) ∧
    (s.sp = 0x00 →
      exec (.push (regByte a)) s = .next { s with status := .faulted .outOfBoundsAccess })

/-- spec/43_stack.md, POP (decision D10 at SP = 0xFF, D29 on an empty stack): the byte at SP goes to the
register, then SP increments; the byte stays in memory. -/
def Obligations.PopResult : Prop :=
  ∀ (a : Fin 8) (s : State),
    (s.sp ≠ 0xFF → ∃ t, exec (.pop (regByte a)) s = .next t ∧
      getReg t a = memGet s.mem s.sp.toNat ∧ t.sp.toNat = s.sp.toNat + 1 ∧ SameRegsBut a s t ∧
      t.pc = s.pc + 2 ∧ t.fl = s.fl ∧ t.status = s.status ∧ SameMemory s t ∧ t.out = s.out ∧
      SameTrace s t) ∧
    (s.sp = 0xFF →
      exec (.pop (regByte a)) s = .next { s with status := .faulted .outOfBoundsAccess })

/-- spec/95_test_vectors.md S4: PUSH(r) then POP(r2) gives r2 the value of r and restores SP. -/
def Obligations.PushThenPop : Prop :=
  ∀ (a b : Fin 8) (s : State), s.mem.wf = true → s.sp ≠ 0x00 →
    ∃ t u, exec (.push (regByte a)) s = .next t ∧ exec (.pop (regByte b)) t = .next u ∧
      getReg u b = getReg s a ∧ SameRegsBut b s u ∧ u.sp = s.sp ∧ u.pc = s.pc + 4

/-- spec/20_memory.md section 5 (decision D20): a byte a PUSH or CALL writes is the byte the next fetch at
that address reads. -/
def Obligations.StoreSeenByNextFetch : Prop :=
  ∀ (i : Instr) (s t : State), s.mem.wf = true → s.status = .running → exec i s = .next t →
    t.status = .running →
    (∀ ra, i = .push ra → ((fetchWindow (setPc (zext9 t.sp) t))[0]?.map BitVec.toNat) =
      some (operandValue s ra)) ∧
    (∀ ra, i = .call ra → ((fetchWindow (setPc (zext9 t.sp) t))[0]?.map BitVec.toNat) =
      some (s.pc.toNat + 2))

/-! ## Control transfer -/

/-- spec/44_control_flow.md, CALL (decisions D10, D11): the address after the CALL is pushed and PC goes to
the register's value; a return address of 256 or SP = 0x00 faults. -/
def Obligations.CallResult : Prop :=
  ∀ (a : Fin 8) (s : State), s.mem.wf = true →
    (s.pc.toNat + 2 ≤ 255 ∧ s.sp ≠ 0x00 → ∃ t, exec (.call (regByte a)) s = .next t ∧
      t.pc.toNat = (getReg s a).toNat ∧ t.sp.toNat = s.sp.toNat - 1 ∧
      (memGet t.mem (s.sp.toNat - 1)).toNat = s.pc.toNat + 2 ∧ SameMemoryBut (s.sp.toNat - 1) s t ∧
      SameRegs s t ∧ t.fl = s.fl ∧ t.status = s.status ∧ t.out = s.out ∧ SameTrace s t) ∧
    (255 < s.pc.toNat + 2 ∨ s.sp = 0x00 →
      exec (.call (regByte a)) s = .next { s with status := .faulted .outOfBoundsAccess })

/-- spec/44_control_flow.md, RET (decision D10 at SP = 0xFF): the top byte is popped into PC. -/
def Obligations.RetResult : Prop :=
  ∀ (s : State),
    (s.sp ≠ 0xFF → ∃ t, exec .ret s = .next t ∧ t.pc.toNat = (memGet s.mem s.sp.toNat).toNat ∧
      t.sp.toNat = s.sp.toNat + 1 ∧ SameRegs s t ∧ t.fl = s.fl ∧ t.status = s.status ∧
      SameMemory s t ∧ t.out = s.out ∧ SameTrace s t) ∧
    (s.sp = 0xFF → exec .ret s = .next { s with status := .faulted .outOfBoundsAccess })

/-- spec/44_control_flow.md, JMP: PC goes to the register's value. -/
def Obligations.JmpResult : Prop :=
  ∀ (a : Fin 8) (s : State), ∃ t, exec (.jmp (regByte a)) s = .next t ∧
    t.pc.toNat = (getReg s a).toNat ∧ SameRegs s t ∧ t.sp = s.sp ∧ t.fl = s.fl ∧
    t.status = s.status ∧ SameMemory s t ∧ t.out = s.out ∧ SameTrace s t

/-- spec/44_control_flow.md, JEQ and JNE: taken by the E flag alone, set for JEQ and clear for JNE; not
taken, PC advances by 2, which is no fault. -/
def Obligations.BranchResult : Prop :=
  ∀ (a : Fin 8) (s : State) (i : Instr),
    (i = .jeq (regByte a) ∨ i = .jne (regByte a)) → ∃ t, exec i s = .next t ∧
      (if s.fl.getLsbD 0 = decide (i = .jeq (regByte a)) then t.pc.toNat = (getReg s a).toNat
        else t.pc = s.pc + 2) ∧
      SameRegs s t ∧ t.sp = s.sp ∧ t.fl = s.fl ∧ t.status = s.status ∧ SameMemory s t ∧
      t.out = s.out ∧ SameTrace s t

/-- spec/95_test_vectors.md S4: CALL then RET returns PC to the instruction after the CALL and SP to where
it was, from wherever in the subroutine the RET stands, if SP and the pushed byte are as CALL left them. -/
def Obligations.CallThenRet : Prop :=
  ∀ (a : Fin 8) (s : State), s.mem.wf = true → s.pc.toNat + 2 ≤ 255 → s.sp ≠ 0x00 →
    ∃ t, exec (.call (regByte a)) s = .next t ∧
      ∀ (v : State), v.sp = t.sp → memGet v.mem v.sp.toNat = memGet t.mem t.sp.toNat →
        ∃ u, exec .ret v = .next u ∧ u.pc = s.pc + 2 ∧ u.sp = s.sp

/-- spec/95_test_vectors.md S4: CMP(a,b) followed by JEQ jumps iff R`a` = R`b`, followed by JNE iff not. -/
def Obligations.CmpThenBranch : Prop :=
  ∀ (a b c : Fin 8) (s : State), ∃ t u v, exec (.cmp (regByte a) (regByte b)) s = .next t ∧
    exec (.jeq (regByte c)) t = .next u ∧ exec (.jne (regByte c)) t = .next v ∧
    (if getReg s a = getReg s b
      then u.pc.toNat = (getReg s c).toNat ∧ v.pc = s.pc + 5
      else u.pc = s.pc + 5 ∧ v.pc.toNat = (getReg s c).toNat)

/-- spec/95_test_vectors.md S4: ADD then SUB of the same register restores the original value, for two
distinct registers. -/
def Obligations.AddThenSub : Prop :=
  ∀ (a b : Fin 8) (s : State), a ≠ b → ∃ t u,
    exec (.add (regByte a) (regByte b)) s = .next t ∧ exec (.sub (regByte a) (regByte b)) t = .next u ∧
    SameRegs s u ∧ u.pc = s.pc + 6

/-! ## Faults on operands, reset and ports -/

/-- spec/30_encoding.md section 2 (decision D8): an instruction with a register operand byte above 7 raises
InvalidRegister, whether or not the register would be used, and changes nothing else. -/
def Obligations.IllFormedRaisesInvalidRegister : Prop :=
  ∀ (i : Instr) (s : State), wellFormed i = false →
    exec i s = .next { s with status := .faulted .invalidRegister }

/-- spec/10_state.md section 8: the reset values. Those of R0 to R7 and FL are the spec's decisions D2 and
D3 (log 6); PC, SP, status and the zeroed memory are stated by the source. -/
def Obligations.ResetValues : Prop :=
  State.reset.pc = 0 ∧ State.reset.sp = 0xF4 ∧ State.reset.fl = 0x00 ∧
    State.reset.status = .running ∧ State.reset.out = [] ∧
    (∀ i : Fin 8, getReg State.reset i = 0x00) ∧ (∀ a : Nat, memGet State.reset.mem a = 0x00)

/-- spec/70_reset_and_hazards.md section 1 (decision D19): an image of at most 256 bytes lies at address 0
upward, every other byte is zero, and all else is as after reset; the empty image is legal and its first
step faults. No run exists for a longer image or after a loader failure: that `load` then answers no state,
the refusal `imageTooLong` and the fault `programNotFound`, is the model's choice (log 11). -/
def Obligations.LoadContract : Prop :=
  (∀ (image : List Byte), image.length ≤ 256 → ∃ t, load (some image) = .next t ∧
    (∀ k, memGet t.mem k = (image[k]?).getD 0x00) ∧ t.mem.wf = true ∧
    { t with mem := [] } = State.reset) ∧
  (∀ (image : List Byte), 256 < image.length →
    load (some image) = .refused (.imageTooLong image.length)) ∧
  load none = .fault .programNotFound ∧
  load (some []) = .next State.reset ∧
  (∃ t, step State.reset = .next t ∧ t.status = .faulted .unsupportedOpcode ∧ SameArch State.reset t)

/-- spec/70_reset_and_hazards.md section 1 (decision D30): the reset input discards all state and loads the
image the host supplies, as `load` does. With an image of at most 256 bytes nothing is left but the image
and the reset values; with a longer one, or a loader failure, no state is answered (the model's choice,
log 11). -/
def Obligations.ResetInputDiscardsState : Prop :=
  (∀ (s : State) (image : LoaderResult), resetInput s image = load image) ∧
  (∀ (image : List Byte), image.length ≤ 256 → ∃ t,
    (∀ s, resetInput s (some image) = .next t) ∧
    (∀ k, memGet t.mem k = (image[k]?).getD 0x00) ∧ t.mem.wf = true ∧
    { t with mem := [] } = State.reset) ∧
  (∀ (s : State) (image : List Byte), 256 < image.length →
    resetInput s (some image) = .refused (.imageTooLong image.length)) ∧
  (∀ (s : State), resetInput s none = .fault .programNotFound)

/-- spec/60_exceptions.md section 1 (decision D31): the status codes are distinct, with 0 for `Running` and
1 for `Halted`, and 7 to 15 never appear. -/
def Obligations.StatusCodes : Prop :=
  (∀ x y : RunStatus, statusCode x = statusCode y → x = y) ∧
  (∀ x : RunStatus, (statusCode x).toNat ≤ 6) ∧ statusCode .running = 0 ∧ statusCode .halted = 1

/-- spec/10_state.md section 7 (decision D13): `inspect` shows the architectural state when the engine is
stopped, and no further step changes what it shows; that it shows nothing while `Running` is the model's
choice (log 9). -/
def Obligations.InspectWhenStopped : Prop :=
  ∀ (s : State), (inspect s = none ↔ s.status = .running) ∧
    (s.status ≠ .running →
      inspect s = some { regs := s.regs, pc := s.pc, sp := s.sp, fl := s.fl, mem := s.mem } ∧
      ∀ t, step s = .next t → inspect t = inspect s)

/-- The model's own convention (log 5): an instruction placed by `withFetchWord` is the one the next step
runs, at the address it was placed. -/
def Obligations.PlacedWordRuns : Prop :=
  ∀ (s : State) (nbits w : Nat) (i : Instr), s.mem.wf = true → decodeTableWord nbits w = some i →
    ∃ t, step (s.withFetchWord nbits w) = exec i t ∧ t.pc = placeAt s ∧ t.regs = s.regs ∧
      t.sp = s.sp ∧ t.fl = s.fl ∧ t.status = .running
end

