-- ==== Sys2Proof/Laws/Decode.lean ====
section
/-! SUPPORT. What the selection of an opcode and the reading of its operand bytes can answer. -/

namespace Sys2Proof.Laws

/-- The byte of an opcode selects it (R55). -/
theorem selectOpcode_opcodeByte (o : Opcode) : selectOpcode (opcodeByte o) = .ok o := by
  cases o <;> rfl

/-- A found opcode has the byte that was looked for. -/
theorem findOpcode_some {table : List Opcode} {ir : Byte} {o : Opcode}
    (h : findOpcode table ir = some o) : opcodeByte o = ir := by
  unfold findOpcode at h
  simpa using List.find?_some h

/-- Only the byte of an opcode selects it (R50). -/
theorem selectOpcode_ok {ir : Byte} {o : Opcode} (h : selectOpcode ir = .ok o) :
    ir = opcodeByte o := by
  unfold selectOpcode at h
  split at h <;> split at h <;> cases h
  all_goals
    next e => exact (findOpcode_some e).symm

/-- An opcode byte is rejected by bit 5, under one of two names (R56). -/
theorem selectOpcode_error {ir : Byte} {e : DecodeError} (h : selectOpcode ir = .error e) :
    (aluBit ir = true ∧ e = .unsupportedALUOperation) ∨
      (aluBit ir = false ∧ e = .unsupportedOpcode) := by
  unfold selectOpcode at h
  cases hb : aluBit ir
  · rw [hb, if_neg (by decide)] at h
    split at h <;> cases h
    exact .inr ⟨rfl, rfl⟩
  · rw [hb, if_pos rfl] at h
    split at h <;> cases h
    exact .inl ⟨rfl, rfl⟩

theorem decodeOne_error {mk : Byte → Instr} {rest : List Byte} {e : DecodeError}
    (h : decodeOne mk rest = .error e) : e = .operandMissing := by
  unfold decodeOne at h; split at h <;> cases h; rfl

theorem decodeTwo_error {mk : Byte → Byte → Instr} {rest : List Byte} {e : DecodeError}
    (h : decodeTwo mk rest = .error e) : e = .operandMissing := by
  unfold decodeTwo at h; split at h <;> cases h <;> rfl

/-- The only way an accepted opcode is not an instruction: an operand byte is missing (R65). -/
theorem decodeOperands_error {o : Opcode} {rest : List Byte} {e : DecodeError}
    (h : decodeOperands o rest = .error e) : e = .operandMissing := by
  cases o <;> simp only [decodeOperands] at h
  all_goals first
    | exact decodeOne_error h
    | exact decodeTwo_error h
    | cases h

/-- The decoder on a byte that is an opcode. -/
theorem decode_opcodeByte (o : Opcode) (rest : List Byte) :
    decode (opcodeByte o :: rest) = decodeOperands o rest := by
  simp only [decode, selectOpcode_opcodeByte]

end Sys2Proof.Laws
end

