-- ==== Sys2Proof/Laws/Memory.lean ====
section
/-! SUPPORT. The laws of memory: what a write changes, and that every memory operation keeps the canonical
form of Ops.lean. -/

namespace Sys2Proof.Laws

open Sys2Proof.Machine

/-- The canonical form of a nonempty memory, as facts. -/
theorem wf_cons {k : Nat} {b : Byte} {m : Memory} (h : Memory.wf ((k, b) :: m) = true) :
    k < Config.memSize ∧ b ≠ unlistedByte ∧ (∀ c ∈ m, k < c.1) ∧ m.wf = true := by
  simp only [Memory.wf, Bool.and_eq_true, decide_eq_true_eq, List.all_eq_true] at h
  exact ⟨h.1.1.1, h.1.1.2, h.1.2, h.2⟩

/-- And back. -/
theorem wf_of_cons {k : Nat} {b : Byte} {m : Memory} (hk : k < Config.memSize) (hb : b ≠ unlistedByte)
    (hm : ∀ c ∈ m, k < c.1) (h : m.wf = true) : Memory.wf ((k, b) :: m) = true := by
  simp only [Memory.wf, Bool.and_eq_true, decide_eq_true_eq, List.all_eq_true]
  exact ⟨⟨⟨hk, hb⟩, hm⟩, h⟩

/-- An address below every listed one reads as unlisted. -/
theorem memGet_of_lt {m : Memory} {a : Nat} (h : ∀ c ∈ m, a < c.1) : memGet m a = unlistedByte := by
  induction m with
  | nil => rfl
  | cons c m ih =>
    obtain ⟨k, b⟩ := c
    have hk : a < k := h (k, b) (List.mem_cons_self ..)
    simp only [memGet, if_neg (show ¬k = a by omega)]
    exact ih fun c hc => h c (List.mem_cons_of_mem _ hc)

/-- Every address in a memory after a write is the written one or was there before. -/
theorem mem_memSet {m : Memory} {a : Nat} {v : Byte} {c : Host.Cell} (h : c ∈ memSet m a v) :
    c.1 = a ∨ c ∈ m := by
  induction m with
  | nil =>
    simp only [memSet] at h
    split at h
    · cases h
    · left; simp at h; rw [h]
  | cons d m ih =>
    obtain ⟨k, b⟩ := d
    simp only [memSet] at h
    split at h
    · rcases List.mem_cons.mp h with rfl | h
      · right; exact List.mem_cons_self ..
      · rcases ih h with h | h
        · left; exact h
        · right; exact List.mem_cons_of_mem _ h
    · split at h <;> split at h
      · right; exact List.mem_cons_of_mem _ h
      · rcases List.mem_cons.mp h with rfl | h
        · left; rfl
        · right; exact List.mem_cons_of_mem _ h
      · right; exact h
      · rcases List.mem_cons.mp h with rfl | h
        · left; rfl
        · right; exact h

/-- A write inside the memory keeps the canonical form. -/
theorem memSet_wf {m : Memory} {a : Nat} {v : Byte} (hm : m.wf = true) (ha : a < Config.memSize) :
    (memSet m a v).wf = true := by
  induction m with
  | nil =>
    simp only [memSet]
    split
    · rfl
    · next hv => exact wf_of_cons ha hv (by simp) rfl
  | cons c m ih =>
    obtain ⟨k, b⟩ := c
    obtain ⟨hk, hb, hlt, hwf⟩ := wf_cons hm
    simp only [memSet]
    split
    · next hka =>
      refine wf_of_cons hk hb (fun c hc => ?_) (ih hwf)
      rcases mem_memSet hc with h | h
      · omega
      · exact hlt c h
    · next hka =>
      split
      · next hke =>
        subst hke
        split
        · exact hwf
        · next hv => exact wf_of_cons ha hv hlt hwf
      · next hne =>
        split
        · exact hm
        · next hv =>
          refine wf_of_cons ha hv (fun c hc => ?_) hm
          rcases List.mem_cons.mp hc with rfl | h
          · simp only; omega
          · have := hlt c h; omega

/-- Read after write: the written address reads the written byte, every other one as before. -/
theorem memGet_memSet {m : Memory} (hm : m.wf = true) (a : Nat) (v : Byte) (x : Nat) :
    memGet (memSet m a v) x = if x = a then v else memGet m x := by
  induction m with
  | nil =>
    by_cases hx : x = a
    · subst hx
      simp only [memSet]
      split
      · next hv => simp [memGet, hv]
      · simp [memGet]
    · simp only [memSet, if_neg hx]
      split
      · rfl
      · simp [memGet, show ¬a = x from fun h => hx h.symm]
  | cons c m ih =>
    obtain ⟨k, b⟩ := c
    obtain ⟨hk, hb, hlt, hwf⟩ := wf_cons hm
    simp only [memSet]
    split
    · next hka =>
      simp only [memGet, ih hwf]
      split
      · next h => rw [if_neg (show ¬x = a by omega)]
      · rfl
    · next hka =>
      split
      · next hke =>
        subst hke
        by_cases hx : x = k
        · subst hx
          rw [if_pos rfl]
          split
          · next hv => rw [hv]; exact memGet_of_lt hlt
          · simp [memGet]
        · rw [if_neg hx]
          split <;> simp [memGet, show ¬k = x from fun h => hx h.symm]
      · next hne =>
        by_cases hx : x = a
        · subst hx
          rw [if_pos rfl]
          split
          · next hv =>
            rw [hv]
            refine memGet_of_lt fun c hc => ?_
            rcases List.mem_cons.mp hc with rfl | h
            · simp only; omega
            · have := hlt c h; omega
          · simp [memGet]
        · rw [if_neg hx]
          split
          · rfl
          · simp [memGet, show ¬a = x from fun h => hx h.symm]

/-- Two canonical memories that read the same are the same data. -/
theorem memory_ext {m n : Memory} (hm : m.wf = true) (hn : n.wf = true)
    (h : ∀ a, memGet m a = memGet n a) : m = n := by
  induction m generalizing n with
  | nil =>
    cases n with
    | nil => rfl
    | cons c n =>
      obtain ⟨k, b⟩ := c
      obtain ⟨_, hb, _, _⟩ := wf_cons hn
      exact absurd (by simpa [memGet] using (h k).symm) hb
  | cons c m ih =>
    obtain ⟨k, b⟩ := c
    obtain ⟨hk, hb, hlt, hwf⟩ := wf_cons hm
    cases n with
    | nil => exact absurd (by simpa [memGet] using h k) hb
    | cons d n =>
      obtain ⟨k', b'⟩ := d
      obtain ⟨hk', hb', hlt', hwf'⟩ := wf_cons hn
      have hkk : k = k' := by
        by_contra hne
        rcases Nat.lt_or_gt_of_ne hne with hlt2 | hgt
        · have h1 : memGet ((k', b') :: n) k = unlistedByte := memGet_of_lt fun c hc => by
            rcases List.mem_cons.mp hc with rfl | hc
            · exact hlt2
            · have := hlt' c hc; omega
          exact hb (by have := h k; rw [h1] at this; simpa [memGet] using this)
        · have h1 : memGet ((k, b) :: m) k' = unlistedByte := memGet_of_lt fun c hc => by
            rcases List.mem_cons.mp hc with rfl | hc
            · exact hgt
            · have := hlt c hc; omega
          exact hb' (by have := h k'; rw [h1] at this; simpa [memGet] using this.symm)
      subst hkk
      have hbb : b = b' := by simpa [memGet] using h k
      subst hbb
      congr 1
      refine ih hwf hwf' fun a => ?_
      by_cases ha : k = a
      · subst ha; rw [memGet_of_lt hlt, memGet_of_lt hlt']
      · simpa [memGet, ha] using h a

/-- Storing bytes that fit keeps the canonical form. -/
theorem memStore_wf {m : Memory} {a : Nat} {bs : List Byte} (hm : m.wf = true)
    (h : a + bs.length ≤ Config.memSize) : (memStore m a bs).wf = true := by
  induction bs generalizing m a with
  | nil => exact hm
  | cons b bs ih =>
    simp only [List.length_cons] at h
    exact ih (memSet_wf hm (by omega)) (by omega)

/-- `MemRead` answers exactly inside the memory. -/
theorem memRead_cases (m : Memory) (a : Nat) :
    (a < 256 ∧ memRead m a = .ok (memGet m a)) ∨
      (256 ≤ a ∧ memRead m a = .error .outOfBoundsAccess) := by
  unfold memRead
  by_cases h : a < 256
  · exact .inl ⟨h, if_pos h⟩
  · exact .inr ⟨by omega, if_neg h⟩

/-- `MemWrite` keeps the canonical form. -/
theorem memWrite_wf {m n : Memory} {a : Nat} {v : Byte} (hm : m.wf = true)
    (h : memWrite m a v = .ok n) : n.wf = true := by
  unfold memWrite at h
  split at h
  · next ha => cases h; exact memSet_wf hm ha
  · cases h

end Sys2Proof.Laws
end

