-- ==== Sys2Proof/Laws/State.lean ====
section
/-! SUPPORT. The updates of State, field by field: each is true by unfolding one record update, so that no
later proof unfolds one. -/

namespace Sys2Proof.Laws

open Sys2Proof.Machine

/-! ### The parameters as numbers -/

@[simp] theorem memSize_eq : Config.memSize = 256 := rfl
@[simp] theorem numGpr_eq : Config.numGpr = 8 := rfl
@[simp] theorem maxInsnLen_eq : Config.maxInsnLen = 3 := rfl

/-! ### setReg -/

@[simp] theorem setReg_regs (i : Fin 8) (v : Byte) (s : State) : (setReg i v s).regs = s.regs.set i v := rfl
@[simp] theorem setReg_pc (i : Fin 8) (v : Byte) (s : State) : (setReg i v s).pc = s.pc := rfl
@[simp] theorem setReg_sp (i : Fin 8) (v : Byte) (s : State) : (setReg i v s).sp = s.sp := rfl
@[simp] theorem setReg_fl (i : Fin 8) (v : Byte) (s : State) : (setReg i v s).fl = s.fl := rfl
@[simp] theorem setReg_status (i : Fin 8) (v : Byte) (s : State) : (setReg i v s).status = s.status := rfl
@[simp] theorem setReg_mem (i : Fin 8) (v : Byte) (s : State) : (setReg i v s).mem = s.mem := rfl
@[simp] theorem setReg_out (i : Fin 8) (v : Byte) (s : State) : (setReg i v s).out = s.out := rfl
@[simp] theorem setReg_trace (i : Fin 8) (v : Byte) (s : State) : (setReg i v s).trace = s.trace := rfl
@[simp] theorem setReg_latches (i : Fin 8) (v : Byte) (s : State) : (setReg i v s).latches = s.latches := rfl

/-! ### setPc -/

@[simp] theorem setPc_regs (p : PcWord) (s : State) : (setPc p s).regs = s.regs := rfl
@[simp] theorem setPc_pc (p : PcWord) (s : State) : (setPc p s).pc = p := rfl
@[simp] theorem setPc_sp (p : PcWord) (s : State) : (setPc p s).sp = s.sp := rfl
@[simp] theorem setPc_fl (p : PcWord) (s : State) : (setPc p s).fl = s.fl := rfl
@[simp] theorem setPc_status (p : PcWord) (s : State) : (setPc p s).status = s.status := rfl
@[simp] theorem setPc_mem (p : PcWord) (s : State) : (setPc p s).mem = s.mem := rfl
@[simp] theorem setPc_out (p : PcWord) (s : State) : (setPc p s).out = s.out := rfl
@[simp] theorem setPc_trace (p : PcWord) (s : State) : (setPc p s).trace = s.trace := rfl
@[simp] theorem setPc_latches (p : PcWord) (s : State) : (setPc p s).latches = s.latches := rfl

/-! ### setSp -/

@[simp] theorem setSp_regs (v : Byte) (s : State) : (setSp v s).regs = s.regs := rfl
@[simp] theorem setSp_pc (v : Byte) (s : State) : (setSp v s).pc = s.pc := rfl
@[simp] theorem setSp_sp (v : Byte) (s : State) : (setSp v s).sp = v := rfl
@[simp] theorem setSp_fl (v : Byte) (s : State) : (setSp v s).fl = s.fl := rfl
@[simp] theorem setSp_status (v : Byte) (s : State) : (setSp v s).status = s.status := rfl
@[simp] theorem setSp_mem (v : Byte) (s : State) : (setSp v s).mem = s.mem := rfl
@[simp] theorem setSp_out (v : Byte) (s : State) : (setSp v s).out = s.out := rfl
@[simp] theorem setSp_trace (v : Byte) (s : State) : (setSp v s).trace = s.trace := rfl
@[simp] theorem setSp_latches (v : Byte) (s : State) : (setSp v s).latches = s.latches := rfl

/-! ### setFl -/

@[simp] theorem setFl_regs (v : Byte) (s : State) : (setFl v s).regs = s.regs := rfl
@[simp] theorem setFl_pc (v : Byte) (s : State) : (setFl v s).pc = s.pc := rfl
@[simp] theorem setFl_sp (v : Byte) (s : State) : (setFl v s).sp = s.sp := rfl
@[simp] theorem setFl_fl (v : Byte) (s : State) : (setFl v s).fl = v := rfl
@[simp] theorem setFl_status (v : Byte) (s : State) : (setFl v s).status = s.status := rfl
@[simp] theorem setFl_mem (v : Byte) (s : State) : (setFl v s).mem = s.mem := rfl
@[simp] theorem setFl_out (v : Byte) (s : State) : (setFl v s).out = s.out := rfl
@[simp] theorem setFl_trace (v : Byte) (s : State) : (setFl v s).trace = s.trace := rfl
@[simp] theorem setFl_latches (v : Byte) (s : State) : (setFl v s).latches = s.latches := rfl

/-! ### setStatus -/

@[simp] theorem setStatus_regs (v : RunStatus) (s : State) : (setStatus v s).regs = s.regs := rfl
@[simp] theorem setStatus_pc (v : RunStatus) (s : State) : (setStatus v s).pc = s.pc := rfl
@[simp] theorem setStatus_sp (v : RunStatus) (s : State) : (setStatus v s).sp = s.sp := rfl
@[simp] theorem setStatus_fl (v : RunStatus) (s : State) : (setStatus v s).fl = s.fl := rfl
@[simp] theorem setStatus_status (v : RunStatus) (s : State) : (setStatus v s).status = v := rfl
@[simp] theorem setStatus_mem (v : RunStatus) (s : State) : (setStatus v s).mem = s.mem := rfl
@[simp] theorem setStatus_out (v : RunStatus) (s : State) : (setStatus v s).out = s.out := rfl
@[simp] theorem setStatus_trace (v : RunStatus) (s : State) : (setStatus v s).trace = s.trace := rfl
@[simp] theorem setStatus_latches (v : RunStatus) (s : State) : (setStatus v s).latches = s.latches := rfl

/-! ### setMem -/

@[simp] theorem setMem_regs (m : Memory) (s : State) : (setMem m s).regs = s.regs := rfl
@[simp] theorem setMem_pc (m : Memory) (s : State) : (setMem m s).pc = s.pc := rfl
@[simp] theorem setMem_sp (m : Memory) (s : State) : (setMem m s).sp = s.sp := rfl
@[simp] theorem setMem_fl (m : Memory) (s : State) : (setMem m s).fl = s.fl := rfl
@[simp] theorem setMem_status (m : Memory) (s : State) : (setMem m s).status = s.status := rfl
@[simp] theorem setMem_mem (m : Memory) (s : State) : (setMem m s).mem = m := rfl
@[simp] theorem setMem_out (m : Memory) (s : State) : (setMem m s).out = s.out := rfl
@[simp] theorem setMem_trace (m : Memory) (s : State) : (setMem m s).trace = s.trace := rfl
@[simp] theorem setMem_latches (m : Memory) (s : State) : (setMem m s).latches = s.latches := rfl

/-! ### emit -/

@[simp] theorem emit_regs (v : Byte) (s : State) : (emit v s).regs = s.regs := rfl
@[simp] theorem emit_pc (v : Byte) (s : State) : (emit v s).pc = s.pc := rfl
@[simp] theorem emit_sp (v : Byte) (s : State) : (emit v s).sp = s.sp := rfl
@[simp] theorem emit_fl (v : Byte) (s : State) : (emit v s).fl = s.fl := rfl
@[simp] theorem emit_status (v : Byte) (s : State) : (emit v s).status = s.status := rfl
@[simp] theorem emit_mem (v : Byte) (s : State) : (emit v s).mem = s.mem := rfl
@[simp] theorem emit_out (v : Byte) (s : State) : (emit v s).out = s.out ++ [v] := rfl
@[simp] theorem emit_trace (v : Byte) (s : State) : (emit v s).trace = s.trace := rfl
@[simp] theorem emit_latches (v : Byte) (s : State) : (emit v s).latches = s.latches := rfl

/-! ### advance -/

@[simp] theorem advance_regs (n : Nat) (s : State) : (advance n s).regs = s.regs := rfl
@[simp] theorem advance_pc (n : Nat) (s : State) : (advance n s).pc = s.pc + BitVec.ofNat 9 n := rfl
@[simp] theorem advance_sp (n : Nat) (s : State) : (advance n s).sp = s.sp := rfl
@[simp] theorem advance_fl (n : Nat) (s : State) : (advance n s).fl = s.fl := rfl
@[simp] theorem advance_status (n : Nat) (s : State) : (advance n s).status = s.status := rfl
@[simp] theorem advance_mem (n : Nat) (s : State) : (advance n s).mem = s.mem := rfl
@[simp] theorem advance_out (n : Nat) (s : State) : (advance n s).out = s.out := rfl
@[simp] theorem advance_trace (n : Nat) (s : State) : (advance n s).trace = s.trace := rfl
@[simp] theorem advance_latches (n : Nat) (s : State) : (advance n s).latches = s.latches := rfl

/-! ### raiseFault -/

@[simp] theorem raiseFault_regs (r : FaultReason) (s : State) : (raiseFault r s).regs = s.regs := rfl
@[simp] theorem raiseFault_pc (r : FaultReason) (s : State) : (raiseFault r s).pc = s.pc := rfl
@[simp] theorem raiseFault_sp (r : FaultReason) (s : State) : (raiseFault r s).sp = s.sp := rfl
@[simp] theorem raiseFault_fl (r : FaultReason) (s : State) : (raiseFault r s).fl = s.fl := rfl
@[simp] theorem raiseFault_status (r : FaultReason) (s : State) : (raiseFault r s).status = .faulted r := rfl
@[simp] theorem raiseFault_mem (r : FaultReason) (s : State) : (raiseFault r s).mem = s.mem := rfl
@[simp] theorem raiseFault_out (r : FaultReason) (s : State) : (raiseFault r s).out = s.out := rfl
@[simp] theorem raiseFault_trace (r : FaultReason) (s : State) : (raiseFault r s).trace = s.trace := rfl
@[simp] theorem raiseFault_latches (r : FaultReason) (s : State) : (raiseFault r s).latches = s.latches := rfl

/-! ### latch -/

@[simp] theorem latch_regs (bs : List Byte) (s : State) : (latch bs s).regs = s.regs := rfl
@[simp] theorem latch_pc (bs : List Byte) (s : State) : (latch bs s).pc = s.pc := rfl
@[simp] theorem latch_sp (bs : List Byte) (s : State) : (latch bs s).sp = s.sp := rfl
@[simp] theorem latch_fl (bs : List Byte) (s : State) : (latch bs s).fl = s.fl := rfl
@[simp] theorem latch_status (bs : List Byte) (s : State) : (latch bs s).status = s.status := rfl
@[simp] theorem latch_mem (bs : List Byte) (s : State) : (latch bs s).mem = s.mem := rfl
@[simp] theorem latch_out (bs : List Byte) (s : State) : (latch bs s).out = s.out := rfl
@[simp] theorem latch_trace (bs : List Byte) (s : State) : (latch bs s).trace = s.trace := rfl
@[simp] theorem latch_latches (bs : List Byte) (s : State) : (latch bs s).latches = loadLatches bs s.latches := rfl

/-! ### present -/

@[simp] theorem present_regs (s : State) : (present s).regs = s.regs := rfl
@[simp] theorem present_pc (s : State) : (present s).pc = s.pc := rfl
@[simp] theorem present_sp (s : State) : (present s).sp = s.sp := rfl
@[simp] theorem present_fl (s : State) : (present s).fl = s.fl := rfl
@[simp] theorem present_status (s : State) : (present s).status = s.status := rfl
@[simp] theorem present_mem (s : State) : (present s).mem = s.mem := rfl
@[simp] theorem present_out (s : State) : (present s).out = s.out := rfl
@[simp] theorem present_trace (s : State) : (present s).trace = s.trace ++ [traceTuple s] := rfl
@[simp] theorem present_latches (s : State) : (present s).latches = s.latches := rfl

/-! ### Registers read back -/

/-- A register reads the value just written to it, and every other one as before. -/
@[simp] theorem getReg_setReg (i j : Fin 8) (v : Byte) (s : State) :
    getReg (setReg i v s) j = if j = i then v else getReg s j := by
  unfold getReg
  simp only [setReg_regs, Fin.getElem_fin, Vector.getElem_set, Fin.val_eq_val, eq_comm]

theorem getReg_congr (s t : State) (h : t.regs = s.regs) (j : Fin 8) : getReg t j = getReg s j := by
  unfold getReg; rw [h]

end Sys2Proof.Laws
end

