-- ==== Sys2Proof/Laws/Ops.lean ====
section
/-! SUPPORT. For each shared operation, one lemma that says everything it can do. -/

namespace Sys2Proof.Laws

open Sys2Proof.Machine

/-- A byte is a proper memory address. -/
theorem byte_lt (b : Byte) : b.toNat < 256 := b.isLt

/-- `RegIdx` names the register of the byte, or raises InvalidRegister. -/
theorem regIdx_cases (b : Byte) :
    (∃ h : b.toNat < 8, regIdx b = .ok ⟨b.toNat, h⟩) ∨
      (8 ≤ b.toNat ∧ regIdx b = .error .invalidRegister) := by
  unfold regIdx
  by_cases h : b.toNat < 8
  · exact .inl ⟨h, dif_pos h⟩
  · exact .inr ⟨by omega, dif_neg h⟩

theorem regIdx_ok {b : Byte} (h : b.toNat < 8) : regIdx b = .ok ⟨b.toNat, h⟩ := dif_pos h

theorem regIdx_error {b : Byte} (h : 8 ≤ b.toNat) : regIdx b = .error .invalidRegister :=
  dif_neg (by omega)

theorem regPair_ok {ra rb : Byte} (ha : ra.toNat < 8) (hb : rb.toNat < 8) :
    regPair ra rb = .ok (⟨ra.toNat, ha⟩, ⟨rb.toNat, hb⟩) := by
  unfold regPair; rw [regIdx_ok ha, regIdx_ok hb]; rfl

theorem regPair_error {ra rb : Byte} (h : 8 ≤ ra.toNat ∨ 8 ≤ rb.toNat) :
    regPair ra rb = .error .invalidRegister := by
  unfold regPair
  rcases regIdx_cases ra with ⟨ha, ea⟩ | ⟨_, ea⟩
  · rw [ea, regIdx_error (by omega)]; rfl
  · rw [ea]; rfl

/-- A push either finds no slot, at SP = 0x00, or decrements SP and writes the byte there. -/
theorem push_cases (v : Byte) (s : State) :
    (s.sp = 0 ∧ push v s = .error .outOfBoundsAccess) ∨
      (s.sp ≠ 0 ∧ push v s =
        .ok (setMem (memSet s.mem (s.sp - 1).toNat v) (setSp (s.sp - 1) s))) := by
  unfold push pushSlot
  by_cases h : s.sp = 0
  · exact .inl ⟨h, by rw [if_pos h]; rfl⟩
  · refine .inr ⟨h, ?_⟩
    rw [if_neg h]
    change (memWrite s.mem (s.sp - 1).toNat v >>= _) = _
    rw [show memWrite s.mem (s.sp - 1).toNat v = .ok (memSet s.mem (s.sp - 1).toNat v) from
      if_pos (byte_lt _)]
    rfl

/-- A pop either faults, at SP = 0xFF, or reads the byte at SP and increments SP. -/
theorem pop_cases (s : State) :
    (s.sp = 0xFF ∧ pop s = .error .outOfBoundsAccess) ∨
      (s.sp ≠ 0xFF ∧ pop s = .ok (memGet s.mem s.sp.toNat, setSp (s.sp + 1) s)) := by
  unfold pop
  by_cases h : s.sp = 0xFF
  · exact .inl ⟨h, if_pos h⟩
  · refine .inr ⟨h, ?_⟩
    rw [if_neg h, show memRead s.mem s.sp.toNat = .ok (memGet s.mem s.sp.toNat) from
      if_pos (byte_lt _)]
    rfl

/-- CALL's return address fits in a byte, or faults. -/
theorem returnAddress_cases (s : State) :
    (s.pc.toNat + 2 < 256 ∧ returnAddress s = .ok (BitVec.ofNat 8 (s.pc.toNat + 2))) ∨
      (256 ≤ s.pc.toNat + 2 ∧ returnAddress s = .error .outOfBoundsAccess) := by
  unfold returnAddress
  by_cases h : s.pc.toNat + 2 < 256
  · exact .inl ⟨h, if_pos h⟩
  · exact .inr ⟨by omega, if_neg h⟩

/-- An instruction ends in a next state: its own, or the fault's, whatever it did. -/
theorem conclude_cases {s t : State} {r : Except FaultReason State}
    (h : conclude s r = .next t) :
    r = .ok t ∨ ∃ reason, r = .error reason ∧ t = raiseFault reason s := by
  cases r with
  | ok u => left; simpa [conclude] using h
  | error reason => right; exact ⟨reason, rfl, by simpa [conclude] using h.symm⟩

/-- A comparison sets exactly one flag. -/
theorem compareFlags_cases (x y : Byte) :
    (x = y ∧ compareFlags x y = 1) ∨ (y.toNat < x.toNat ∧ compareFlags x y = 2) ∨
      (x.toNat < y.toNat ∧ compareFlags x y = 4) := by
  unfold compareFlags
  rcases Nat.lt_trichotomy x.toNat y.toNat with h | h | h
  · right; right; rw [if_neg (by omega), if_neg (by omega)]; exact ⟨h, rfl⟩
  · left; rw [if_pos h]; exact ⟨BitVec.eq_of_toNat_eq h, rfl⟩
  · right; left; rw [if_neg (by omega), if_pos h]; exact ⟨h, rfl⟩

/-- A zero-extended byte keeps its value. -/
theorem zext9_toNat (b : Byte) : (zext9 b).toNat = b.toNat := by
  simp only [zext9, BitVec.toNat_setWidth]; have := b.isLt; omega

end Sys2Proof.Laws
end

