-- ==== Sys2Proof/Laws/Exec.lean ====
section
/-! SUPPORT. One lemma per meaning: everything `exec` of that instruction can answer, as an equation in
each case. Later proofs cite these and unfold no meaning. -/

namespace Sys2Proof.Laws

open Sys2Proof.Machine

/-- What a finished computation answers. -/
theorem conclude_ok (s t : State) : conclude s (.ok t) = .next t := rfl

theorem conclude_error (s : State) (r : FaultReason) :
    conclude s (.error r) = .next (raiseFault r s) := rfl

/-- The operand byte of R`a` names R`a`. -/
theorem regByte_toNat (a : Fin 8) : (regByte a).toNat = a.val := by
  revert a; decide

theorem regIdx_regByte (a : Fin 8) : regIdx (regByte a) = .ok a := by
  revert a; decide

/-- A byte that names a register is the operand byte of that register. -/
theorem regByte_of_lt {p : Byte} (h : p.toNat < 8) : regByte ⟨p.toNat, h⟩ = p := by
  apply BitVec.eq_of_toNat_eq; rw [regByte_toNat]

theorem regByte_injective {a b : Fin 8} (h : regByte a = regByte b) : a = b := by
  apply Fin.ext; rw [← regByte_toNat, ← regByte_toNat, h]

/-- A byte names a register or it does not. -/
theorem operand_cases (p : Byte) : (∃ a : Fin 8, p = regByte a) ∨ 8 ≤ p.toNat := by
  by_cases h : p.toNat < 8
  · exact .inl ⟨⟨p.toNat, h⟩, (regByte_of_lt h).symm⟩
  · exact .inr (by omega)

theorem operandValue_regByte (s : State) (a : Fin 8) :
    operandValue s (regByte a) = (getReg s a).toNat := by
  have h : (regByte a).toNat < 8 := by rw [regByte_toNat]; exact a.isLt
  unfold operandValue; rw [dif_pos h]; congr 2; exact Fin.ext (regByte_toNat a)

theorem regPair_regByte (a b : Fin 8) : regPair (regByte a) (regByte b) = .ok (a, b) := by
  unfold regPair; rw [regIdx_regByte, regIdx_regByte]; rfl

/-- A well-formed operand names a register. -/
theorem regByte_of_isRegister {p : Byte} (h : isRegister p = true) : ∃ a : Fin 8, p = regByte a := by
  have h' : p.toNat < 8 := of_decide_eq_true h
  exact ⟨⟨p.toNat, h'⟩, (regByte_of_lt h').symm⟩

/-- Case analysis over all instructions: an ill-formed one, or a constructor with operand bytes that name
registers. -/
theorem instr_operand_cases {P : Instr → Prop} (ill : ∀ i, wellFormed i = false → P i)
    (hlt : P .hlt) (ret : P .ret) (push : ∀ a, P (.push (regByte a))) (pop : ∀ a, P (.pop (regByte a)))
    (prn : ∀ a, P (.prn (regByte a))) (call : ∀ a, P (.call (regByte a)))
    (jmp : ∀ a, P (.jmp (regByte a))) (jeq : ∀ a, P (.jeq (regByte a)))
    (jne : ∀ a, P (.jne (regByte a))) (ldi : ∀ a v, P (.ldi (regByte a) v))
    (add : ∀ a b, P (.add (regByte a) (regByte b))) (sub : ∀ a b, P (.sub (regByte a) (regByte b)))
    (mul : ∀ a b, P (.mul (regByte a) (regByte b))) (div : ∀ a b, P (.div (regByte a) (regByte b)))
    (cmp : ∀ a b, P (.cmp (regByte a) (regByte b))) (i : Instr) : P i := by
  cases hw : wellFormed i with
  | false => exact ill i hw
  | true =>
    have one {p : Byte} {Q : Byte → Prop} (hp : isRegister p = true) (h : ∀ a, Q (regByte a)) : Q p := by
      obtain ⟨a, rfl⟩ := regByte_of_isRegister hp; exact h a
    have two {p q : Byte} {Q : Byte → Byte → Prop} (hp : isRegister p = true ∧ isRegister q = true)
        (h : ∀ a b, Q (regByte a) (regByte b)) : Q p q := by
      obtain ⟨a, rfl⟩ := regByte_of_isRegister hp.1
      obtain ⟨b, rfl⟩ := regByte_of_isRegister hp.2; exact h a b
    cases i <;> simp only [wellFormed, registerOperands, List.all_cons, List.all_nil,
      Bool.and_true, Bool.and_eq_true] at hw
    case hlt => exact hlt
    case ret => exact ret
    case push => exact one (Q := fun p => P (.push p)) hw push
    case pop => exact one (Q := fun p => P (.pop p)) hw pop
    case prn => exact one (Q := fun p => P (.prn p)) hw prn
    case call => exact one (Q := fun p => P (.call p)) hw call
    case jmp => exact one (Q := fun p => P (.jmp p)) hw jmp
    case jeq => exact one (Q := fun p => P (.jeq p)) hw jeq
    case jne => exact one (Q := fun p => P (.jne p)) hw jne
    case ldi => exact one (Q := fun p => P (.ldi p _)) hw (fun a => ldi a _)
    case add => exact two (Q := fun p q => P (.add p q)) hw add
    case sub => exact two (Q := fun p q => P (.sub p q)) hw sub
    case mul => exact two (Q := fun p q => P (.mul p q)) hw mul
    case div => exact two (Q := fun p q => P (.div p q)) hw div
    case cmp => exact two (Q := fun p q => P (.cmp p q)) hw cmp

/-! ## The shared forms -/

theorem aluWrite_regByte (f : Byte → Byte → Except FaultReason Byte) (a b : Fin 8) (s : State) :
    aluWrite f (regByte a) (regByte b) s =
      match f (getReg s a) (getReg s b) with
      | .ok v => .ok (advance 3 (setReg a v s))
      | .error r => .error r := by
  unfold aluWrite; rw [regPair_regByte]
  change (f (getReg s a) (getReg s b) >>= _) = _
  cases f (getReg s a) (getReg s b) <;> rfl

theorem aluWrite_invalid (f : Byte → Byte → Except FaultReason Byte) {p q : Byte} (s : State)
    (h : 8 ≤ p.toNat ∨ 8 ≤ q.toNat) : aluWrite f p q s = .error .invalidRegister := by
  unfold aluWrite; rw [regPair_error h]; rfl

theorem branchIf_regByte (taken : Bool) (a : Fin 8) (s : State) :
    branchIf taken (regByte a) s =
      .ok (if taken then setPc (zext9 (getReg s a)) s else advance 2 s) := by
  unfold branchIf; rw [regIdx_regByte]; rfl

/-! ## The meanings -/

theorem exec_add (a b : Fin 8) (s : State) : exec (.add (regByte a) (regByte b)) s =
    .next (advance 3 (setReg a (aluAdd (getReg s a) (getReg s b)) s)) := by
  change conclude s (aluWrite _ _ _ s) = _
  rw [aluWrite_regByte]; rfl

theorem exec_sub (a b : Fin 8) (s : State) : exec (.sub (regByte a) (regByte b)) s =
    .next (advance 3 (setReg a (aluSub (getReg s a) (getReg s b)) s)) := by
  change conclude s (aluWrite _ _ _ s) = _
  rw [aluWrite_regByte]; rfl

theorem exec_mul (a b : Fin 8) (s : State) : exec (.mul (regByte a) (regByte b)) s =
    .next (advance 3 (setReg a (aluMul (getReg s a) (getReg s b)) s)) := by
  change conclude s (aluWrite _ _ _ s) = _
  rw [aluWrite_regByte]; rfl

theorem exec_div (a b : Fin 8) (s : State) : exec (.div (regByte a) (regByte b)) s =
    if (getReg s b).toNat = 0 then .next (raiseFault .divisionByZero s)
    else .next (advance 3 (setReg a (BitVec.ofNat 8 ((getReg s a).toNat / (getReg s b).toNat)) s)) := by
  change conclude s (aluWrite _ _ _ s) = _
  rw [aluWrite_regByte]
  by_cases h : (getReg s b).toNat = 0
  · rw [if_pos h, show aluDiv (getReg s a) (getReg s b) = .error .divisionByZero from if_pos h]; rfl
  · rw [if_neg h, show aluDiv (getReg s a) (getReg s b) =
      .ok (BitVec.ofNat 8 ((getReg s a).toNat / (getReg s b).toNat)) from if_neg h]; rfl

theorem exec_cmp (a b : Fin 8) (s : State) : exec (.cmp (regByte a) (regByte b)) s =
    .next (advance 3 (setFl (compareFlags (getReg s a) (getReg s b)) s)) := by
  change conclude s (regPair (regByte a) (regByte b) >>= _) = _
  rw [regPair_regByte]; rfl

theorem exec_ldi (a : Fin 8) (v : Byte) (s : State) : exec (.ldi (regByte a) v) s =
    .next (advance 3 (setReg a v s)) := by
  change conclude s (regIdx (regByte a) >>= _) = _
  rw [regIdx_regByte]; rfl

theorem exec_prn (a : Fin 8) (s : State) : exec (.prn (regByte a)) s =
    .next (advance 2 (emit (getReg s a) s)) := by
  change conclude s (regIdx (regByte a) >>= _) = _
  rw [regIdx_regByte]; rfl

theorem exec_hlt (s : State) : exec .hlt s = .next (setStatus .halted (advance 1 s)) := rfl

theorem exec_push (a : Fin 8) (s : State) : exec (.push (regByte a)) s =
    if s.sp = 0 then .next (raiseFault .outOfBoundsAccess s)
    else .next (advance 2 (setMem (memSet s.mem (s.sp - 1).toNat (getReg s a)) (setSp (s.sp - 1) s))) := by
  change conclude s (regIdx (regByte a) >>= _) = _
  rw [regIdx_regByte]
  change conclude s (push (getReg s a) s >>= _) = _
  rcases push_cases (getReg s a) s with ⟨h, e⟩ | ⟨h, e⟩
  · rw [e, if_pos h]; rfl
  · rw [e, if_neg h]; rfl

theorem exec_pop (a : Fin 8) (s : State) : exec (.pop (regByte a)) s =
    if s.sp = 0xFF then .next (raiseFault .outOfBoundsAccess s)
    else .next (advance 2 (setReg a (memGet s.mem s.sp.toNat) (setSp (s.sp + 1) s))) := by
  change conclude s (regIdx (regByte a) >>= _) = _
  rw [regIdx_regByte]
  change conclude s (pop s >>= _) = _
  rcases pop_cases s with ⟨h, e⟩ | ⟨h, e⟩
  · rw [e, if_pos h]; rfl
  · rw [e, if_neg h]; rfl

theorem exec_call (a : Fin 8) (s : State) : exec (.call (regByte a)) s =
    if 256 ≤ s.pc.toNat + 2 ∨ s.sp = 0 then .next (raiseFault .outOfBoundsAccess s)
    else .next (setPc (zext9 (getReg s a))
      (setMem (memSet s.mem (s.sp - 1).toNat (BitVec.ofNat 8 (s.pc.toNat + 2))) (setSp (s.sp - 1) s))) := by
  change conclude s (regIdx (regByte a) >>= _) = _
  rw [regIdx_regByte]
  change conclude s (returnAddress s >>= _) = _
  rcases returnAddress_cases s with ⟨h, e⟩ | ⟨h, e⟩
  · rw [e]
    change conclude s (push (BitVec.ofNat 8 (s.pc.toNat + 2)) s >>= _) = _
    rcases push_cases (BitVec.ofNat 8 (s.pc.toNat + 2)) s with ⟨h', e'⟩ | ⟨h', e'⟩
    · rw [e', if_pos (.inr h')]; rfl
    · rw [e', if_neg (by rintro (h1 | h1) <;> [omega; exact h' h1])]; rfl
  · rw [e, if_pos (.inl h)]; rfl

theorem exec_ret (s : State) : exec .ret s =
    if s.sp = 0xFF then .next (raiseFault .outOfBoundsAccess s)
    else .next (setPc (zext9 (memGet s.mem s.sp.toNat)) (setSp (s.sp + 1) s)) := by
  change conclude s (pop s >>= _) = _
  rcases pop_cases s with ⟨h, e⟩ | ⟨h, e⟩
  · rw [e, if_pos h]; rfl
  · rw [e, if_neg h]; rfl

theorem exec_jmp (a : Fin 8) (s : State) : exec (.jmp (regByte a)) s =
    .next (setPc (zext9 (getReg s a)) s) := by
  change conclude s (regIdx (regByte a) >>= _) = _
  rw [regIdx_regByte]; rfl

theorem exec_jeq (a : Fin 8) (s : State) : exec (.jeq (regByte a)) s =
    .next (if flagE s.fl then setPc (zext9 (getReg s a)) s else advance 2 s) := by
  change conclude s (branchIf _ _ s) = _
  rw [branchIf_regByte]; rfl

theorem exec_jne (a : Fin 8) (s : State) : exec (.jne (regByte a)) s =
    .next (if !flagE s.fl then setPc (zext9 (getReg s a)) s else advance 2 s) := by
  change conclude s (branchIf _ _ s) = _
  rw [branchIf_regByte]; rfl

end Sys2Proof.Laws
end

