-- ==== Sys2Proof/Laws/Fetch.lean ====
section
/-! SUPPORT. What the fetch sees, and what a step does in each status. -/

namespace Sys2Proof.Laws

open Sys2Proof.Machine

/-- At most `n` bytes are fetched. -/
theorem fetchBytes_length (m : Memory) (a n : Nat) :
    (fetchBytes m a n).length = min n (256 - a) := by
  induction n generalizing a with
  | zero => simp [fetchBytes]
  | succ n ih =>
    rcases memRead_cases m a with ⟨h, e⟩ | ⟨h, e⟩
    · simp only [fetchBytes, e, List.length_cons, ih]; omega
    · simp only [fetchBytes, e, List.length_nil]; omega

/-- Byte `k` of a fetch is the byte in memory at `a + k`. -/
theorem fetchBytes_getElem? (m : Memory) (a n k : Nat) :
    (fetchBytes m a n)[k]? = if k < n ∧ a + k < 256 then some (memGet m (a + k)) else none := by
  induction n generalizing a k with
  | zero => simp [fetchBytes]
  | succ n ih =>
    rcases memRead_cases m a with ⟨h, e⟩ | ⟨h, e⟩
    · cases k with
      | zero => simp [fetchBytes, e, h]
      | succ k =>
        simp only [fetchBytes, e, List.getElem?_cons_succ, ih]
        rw [show a + 1 + k = a + (k + 1) by omega]
        simp only [Nat.add_lt_add_iff_right]
    · simp only [fetchBytes, e, List.getElem?_nil]
      rw [if_neg (by omega)]

/-- A step of a running engine, before the instruction is known. -/
theorem step_running {s : State} (h : s.status = .running) :
    step s = match decode (fetchWindow s) with
      | .error e => .next (raiseFault (decodeFault e) (latch (fetchWindow s) s))
      | .ok (i, _) => exec i (latch (fetchWindow s) (present s)) := by
  cases s; cases h; rfl

/-- An engine that is not running keeps its state. -/
theorem step_stopped {s : State} (h : s.status ≠ .running) : step s = .next s := by
  unfold step
  split
  · rfl
  · rfl
  · next h' => exact absurd h' h

end Sys2Proof.Laws
end

