-- ==== Sys2Proof/Laws/PerInstr.lean ====
section
/-! SUPPORT. What is proved of every instruction, one lemma per constructor: its encoding has the form its
row of spec/30_encoding.md R55 gives. -/

namespace Sys2Proof.Laws

/-- The first byte selects the instruction's own opcode, bits 7:6 of it give the whole length (R48), and
bit 5 says whether the ALU executes it (R49). -/
def EncodedForm.Statement (i : Instr) : Prop :=
  ∃ ir ops, encode i = ir :: ops ∧ selectOpcode ir = .ok (opcodeOf i) ∧
    (encode i).length = insnLength ir ∧ aluBit ir = decide (opcodeOf i ∈ aluOpcodes)

/-- The form follows from the opcode and the number of operand bytes. -/
theorem EncodedForm.of_opcode (i : Instr) (o : Opcode) (ho : opcodeOf i = o)
    (hl : (operandBytes i).length + 1 = insnLength (opcodeByte o))
    (hb : aluBit (opcodeByte o) = decide (o ∈ aluOpcodes)) : EncodedForm.Statement i := by
  subst ho
  exact ⟨_, _, rfl, selectOpcode_opcodeByte _, hl, hb⟩

theorem EncodedForm.hlt : EncodedForm.Statement .hlt :=
  EncodedForm.of_opcode _ .hlt rfl (by simp only [operandBytes, List.length]; decide) (by decide)

theorem EncodedForm.ret : EncodedForm.Statement .ret :=
  EncodedForm.of_opcode _ .ret rfl (by simp only [operandBytes, List.length]; decide) (by decide)

theorem EncodedForm.push (ra : Byte) : EncodedForm.Statement (.push ra) :=
  EncodedForm.of_opcode _ .push rfl (by simp only [operandBytes, List.length]; decide) (by decide)

theorem EncodedForm.pop (ra : Byte) : EncodedForm.Statement (.pop ra) :=
  EncodedForm.of_opcode _ .pop rfl (by simp only [operandBytes, List.length]; decide) (by decide)

theorem EncodedForm.prn (ra : Byte) : EncodedForm.Statement (.prn ra) :=
  EncodedForm.of_opcode _ .prn rfl (by simp only [operandBytes, List.length]; decide) (by decide)

theorem EncodedForm.call (ra : Byte) : EncodedForm.Statement (.call ra) :=
  EncodedForm.of_opcode _ .call rfl (by simp only [operandBytes, List.length]; decide) (by decide)

theorem EncodedForm.jmp (ra : Byte) : EncodedForm.Statement (.jmp ra) :=
  EncodedForm.of_opcode _ .jmp rfl (by simp only [operandBytes, List.length]; decide) (by decide)

theorem EncodedForm.jeq (ra : Byte) : EncodedForm.Statement (.jeq ra) :=
  EncodedForm.of_opcode _ .jeq rfl (by simp only [operandBytes, List.length]; decide) (by decide)

theorem EncodedForm.jne (ra : Byte) : EncodedForm.Statement (.jne ra) :=
  EncodedForm.of_opcode _ .jne rfl (by simp only [operandBytes, List.length]; decide) (by decide)

theorem EncodedForm.ldi (ra imm8 : Byte) : EncodedForm.Statement (.ldi ra imm8) :=
  EncodedForm.of_opcode _ .ldi rfl (by simp only [operandBytes, List.length]; decide) (by decide)

theorem EncodedForm.add (ra rb : Byte) : EncodedForm.Statement (.add ra rb) :=
  EncodedForm.of_opcode _ .add rfl (by simp only [operandBytes, List.length]; decide) (by decide)

theorem EncodedForm.sub (ra rb : Byte) : EncodedForm.Statement (.sub ra rb) :=
  EncodedForm.of_opcode _ .sub rfl (by simp only [operandBytes, List.length]; decide) (by decide)

theorem EncodedForm.mul (ra rb : Byte) : EncodedForm.Statement (.mul ra rb) :=
  EncodedForm.of_opcode _ .mul rfl (by simp only [operandBytes, List.length]; decide) (by decide)

theorem EncodedForm.div (ra rb : Byte) : EncodedForm.Statement (.div ra rb) :=
  EncodedForm.of_opcode _ .div rfl (by simp only [operandBytes, List.length]; decide) (by decide)

theorem EncodedForm.cmp (ra rb : Byte) : EncodedForm.Statement (.cmp ra rb) :=
  EncodedForm.of_opcode _ .cmp rfl (by simp only [operandBytes, List.length]; decide) (by decide)

end Sys2Proof.Laws
end

