-- ==== Sys2Proof/Laws/Run.lean ====
section
/-! SUPPORT. A run of several steps, unfolded one step at a time. -/

namespace Sys2Proof.Laws

open Sys2Proof.Machine

/-- No step: the state itself. -/
theorem run_zero (s : State) : Host.Core.run core 0 s = .next s := rfl

/-- One more step of any machine, when its first step answers a next state. -/
theorem core_run_succ (M : Host.Core) {s t : M.State} (h : M.step s = .next t) (k : Nat) :
    M.run (k + 1) s = M.run k t := by
  simp only [Host.Core.run, h]

/-- A run whose first step answers a next state goes on from there. -/
theorem run_succ {s t : State} (h : step s = .next t) (k : Nat) :
    Host.Core.run core (k + 1) s = Host.Core.run core k t := core_run_succ core h k

end Sys2Proof.Laws
end

