-- ==== Sys2Proof/Tests/Slice0.lean ====
section
/-! SUPPORT. Tests of one decode or one step each. Expected results are the spec's own: "vector A1" is a
row of spec/95_test_vectors.md, and the bytes are written from spec/30_encoding.md R51 and R55. The
`witness_` theorems show states and operands that meet all hypotheses of the statement they name. -/

namespace Sys2Proof.Tests

open Sys2Proof.Machine

/-! ## WellFormed: a term each check refuses -/

theorem test_wf_refuses_ra_8 :
    [Instr.push 8, .pop 8, .prn 8, .call 8, .jmp 8, .jeq 8, .jne 8, .ldi 8 0, .add 8 0, .sub 8 0,
      .mul 8 0, .div 8 0, .cmp 8 0].all (fun i => !wellFormed i) = true := by decide

theorem test_wf_refuses_rb_8 :
    [Instr.add 7 8, .sub 7 8, .mul 7 8, .div 7 8, .cmp 7 8].all (fun i => !wellFormed i) = true := by
  decide

theorem test_wf_accepts :
    [Instr.hlt, .ret, .push 7, .pop 0, .prn 7, .call 7, .jmp 0, .jeq 7, .jne 7, .ldi 7 0xFF, .add 7 7,
      .sub 0 7, .mul 7 0, .div 7 7, .cmp 0 0].all wellFormed = true := by decide

/-! ## Decode: the bytes of R55, bit by bit -/

theorem test_decode_hlt : decode [0b00000001, 0xFF] = .ok (.hlt, [0xFF]) := by rfl
theorem test_decode_ret : decode [0b00010001] = .ok (.ret, []) := by rfl
theorem test_decode_push : decode [0b01000101, 0b00000110] = .ok (.push 6, []) := by rfl
theorem test_decode_pop : decode [0b01000110, 0b00000101] = .ok (.pop 5, []) := by rfl
theorem test_decode_prn : decode [0b01000111, 0b00000001] = .ok (.prn 1, []) := by rfl
theorem test_decode_call : decode [0b01010000, 0b00000010] = .ok (.call 2, []) := by rfl
theorem test_decode_jmp : decode [0b01010100, 0b00000011] = .ok (.jmp 3, []) := by rfl
theorem test_decode_jeq : decode [0b01010101, 0b00000100] = .ok (.jeq 4, []) := by rfl
theorem test_decode_jne : decode [0b01010110, 0b00000111] = .ok (.jne 7, []) := by rfl
theorem test_decode_ldi : decode [0b10000010, 0b00000001, 0b10001001] = .ok (.ldi 1 0x89, []) := by rfl
theorem test_decode_add : decode [0b10100000, 0b00000001, 0b00000010] = .ok (.add 1 2, []) := by rfl
theorem test_decode_sub : decode [0b10100001, 0b00000011, 0b00000100] = .ok (.sub 3 4, []) := by rfl
theorem test_decode_mul : decode [0b10100010, 0b00000101, 0b00000110] = .ok (.mul 5 6, []) := by rfl
theorem test_decode_div : decode [0b10100011, 0b00000111, 0b00000000] = .ok (.div 7 0, []) := by rfl
theorem test_decode_cmp : decode [0b10100111, 0b00000010, 0b00000001] = .ok (.cmp 2 1, []) := by rfl

/-- The whole operand byte is kept: 0x09 is not R1 (R52). -/
theorem test_decode_keeps_high_operand_bits : decode [0b01000111, 0b00001001] = .ok (.prn 9, []) := by
  rfl

/-- Vectors DC2, DC3, DC12, DC13, and bytes with an operand missing. -/
theorem test_decode_rejects :
    decode [] = .error .opcodeMissing ∧ decode [0x00] = .error .unsupportedOpcode ∧
    decode [0xA4, 0x00, 0x01] = .error .unsupportedALUOperation ∧
    decode [0xA4] = .error .unsupportedALUOperation ∧ decode [0x47] = .error .operandMissing ∧
    decode [0x82, 0x00] = .error .operandMissing := ⟨rfl, rfl, rfl, rfl, rfl, rfl⟩

/-- Bit 0 of the table's word is bit 0 of the first byte. -/
theorem test_table_word : decodeTableWord 24 0x0201A0 = some (.add 1 2) ∧
    decodeTableWord 8 0x82 = some (.ldi 0 0) ∧ decodeTableWord 8 0x00 = none := by decide

/-! ## One step -/

/-- The reset state with registers, PC and the bytes at PC. -/
def start (regs : RegFile) (pc : PcWord) (bytes : List Byte) : State :=
  { State.reset with regs := regs, pc := pc, mem := memStore [] pc.toNat bytes }

/-- R0 and R1, the other registers 0. -/
def r01 (x y : Byte) : RegFile := #v[x, y, 0, 0, 0, 0, 0, 0]

/-- All registers 0. -/
def r0s : RegFile := r01 0 0

/-- The outcome is a next state of which `p` holds. -/
def nextHas (o : Host.Outcome State Fault Refusal) (p : State → Bool) : Bool :=
  match o with
  | .next t => p t
  | .fault _ => false
  | .refused _ => false

/-- The step faults with that reason and changes nothing but the status, the trace and the latches. -/
def faultsWith (r : FaultReason) (s : State) : Bool :=
  nextHas (step s) (fun t =>
    decide ({ t with trace := s.trace, latches := s.latches } = { s with status := .faulted r }))

/-- Vector A1. -/
theorem test_add_wraps : nextHas (step { start (r01 200 100) 0 [0xA0, 0, 1] with fl := 4 })
    (fun t => getReg t 0 == 44 && getReg t 1 == 100 && t.fl == 4 && t.pc == 3) = true := by decide

/-- Vector A3: one register as both operands. -/
theorem test_add_same : nextHas (step (start (r01 128 0) 0 [0xA0, 0, 0]))
    (fun t => getReg t 0 == 0 && t.pc == 3) = true := by decide

/-- Vector A5. -/
theorem test_sub_wraps : nextHas (step (start (r01 5 10) 0 [0xA1, 0, 1]))
    (fun t => getReg t 0 == 251 && getReg t 1 == 10 && t.pc == 3) = true := by decide

/-- Vector A8. -/
theorem test_mul_high_byte_lost : nextHas (step (start (r01 16 16) 0 [0xA2, 0, 1]))
    (fun t => getReg t 0 == 0 && getReg t 1 == 16 && t.pc == 3) = true := by decide

/-- Vector A10. -/
theorem test_mul_low_byte : nextHas (step (start (r01 255 255) 0 [0xA2, 0, 1]))
    (fun t => getReg t 0 == 1 && getReg t 1 == 255) = true := by decide

/-- Vector A20. -/
theorem test_div_truncates : nextHas (step (start (r01 100 7) 0 [0xA3, 0, 1]))
    (fun t => getReg t 0 == 14 && getReg t 1 == 7 && t.pc == 3) = true := by decide

/-- Vector A19. -/
theorem test_div_by_zero : faultsWith .divisionByZero (start (r01 10 0) 0 [0xA3, 0, 1]) = true := by
  decide

/-- Vector F3: E is set, L is cleared. -/
theorem test_cmp_equal : nextHas (step { start (r01 4 4) 0 [0xA7, 0, 1] with fl := 4 })
    (fun t => t.fl == 1 && getReg t 0 == 4 && t.pc == 3) = true := by decide

/-- Vector F4: unsigned, `ra` on the left. -/
theorem test_cmp_unsigned : nextHas (step (start (r01 0 255) 0 [0xA7, 0, 1]))
    (fun t => t.fl == 4) = true := by decide

/-- Vector X7. -/
theorem test_ldi : nextHas (step (start r0s 0 [0x82, 7, 0xFF]))
    (fun t => getReg t 7 == 255 && getReg t 0 == 0 && t.pc == 3) = true := by decide

/-- Vector DC10: PC becomes 256 and the engine goes on. -/
theorem test_ldi_to_256 : nextHas (step (start r0s 253 [0x82, 3, 0x99]))
    (fun t => getReg t 3 == 0x99 && t.pc == 256 && t.status == .running) = true := by decide

/-- Vector LP2. -/
theorem test_prn : nextHas (step (start #v[0, 0, 0, 42, 0, 0, 0, 0] 0 [0x47, 3]))
    (fun t => t.out == [42] && t.pc == 2) = true := by decide

/-- Vector LP4. -/
theorem test_prn_r8 : faultsWith .invalidRegister (start r0s 0 [0x47, 8]) = true := by decide

/-- Vector DC11. -/
theorem test_hlt_at_255 : nextHas (step (start r0s 255 [0x01]))
    (fun t => t.status == .halted && t.pc == 256) = true := by decide

/-- Vector DC14. -/
theorem test_halted_stays :
    nextHas (step { start r0s 1 [0x82, 0, 5] with status := .halted })
      (fun t => t == { start r0s 1 [0x82, 0, 5] with status := .halted }) = true := by decide

/-- Vector K1. -/
theorem test_push : nextHas (step (start (r01 5 0) 0 [0x45, 0]))
    (fun t => t.sp == 0xF3 && memGet t.mem 0xF3 == 5 && memGet t.mem 0xF4 == 0 && t.pc == 2) = true := by
  decide

/-- Vector K2. -/
theorem test_push_full :
    faultsWith .outOfBoundsAccess { start r0s 0 [0x45, 0] with sp := 0x00 } = true := by decide

/-- Vector K6. -/
theorem test_pop_empty : nextHas (step (start #v[0, 0, 7, 0, 0, 0, 0, 0] 0 [0x46, 2]))
    (fun t => getReg t 2 == 0 && t.sp == 0xF5 && t.pc == 2) = true := by decide

/-- Vector K4. -/
theorem test_pop_at_ff :
    faultsWith .outOfBoundsAccess { start r0s 0 [0x46, 0] with sp := 0xFF } = true := by decide

/-- Vector T4: the last address a CALL may return to. -/
theorem test_call : nextHas (step (start (r01 0 7) 253 [0x50, 1]))
    (fun t => memGet t.mem 0xF3 == 0xFF && t.sp == 0xF3 && t.pc == 7) = true := by decide

/-- Vector T3. -/
theorem test_call_at_254 :
    faultsWith .outOfBoundsAccess (start (r01 0 7) 254 [0x50, 1]) = true := by decide

/-- Vector T2. -/
theorem test_ret : nextHas (step { start r0s 45 [0x11] with
      sp := 0xF3, mem := [(45, 0x11), (0xF3, 12)] })
    (fun t => t.pc == 12 && t.sp == 0xF4 && memGet t.mem 0xF3 == 12) = true := by decide

/-- Vector T7. -/
theorem test_ret_at_ff :
    faultsWith .outOfBoundsAccess { start r0s 0 [0x11] with sp := 0xFF } = true := by decide

/-- Vector T10. -/
theorem test_jmp : nextHas (step (start (r01 255 0) 0 [0x54, 0])) (fun t => t.pc == 255) = true := by
  decide

/-- Vectors T11, T12. -/
theorem test_jeq :
    nextHas (step { start #v[0, 0, 0, 9, 0, 0, 0, 0] 20 [0x55, 3] with fl := 1 })
      (fun t => t.pc == 9 && t.fl == 1) = true ∧
    nextHas (step { start #v[0, 0, 0, 9, 0, 0, 0, 0] 20 [0x55, 3] with fl := 2 })
      (fun t => t.pc == 22) = true := by decide

/-- Vector T17: the register is checked though the branch is not taken. -/
theorem test_jeq_r9 : faultsWith .invalidRegister (start r0s 0 [0x55, 9]) = true := by decide

/-- Vectors T13, T14. -/
theorem test_jne :
    nextHas (step { start #v[0, 0, 0, 9, 0, 0, 0, 0] 20 [0x56, 3] with fl := 4 })
      (fun t => t.pc == 9) = true ∧
    nextHas (step { start #v[0, 0, 0, 9, 0, 0, 0, 0] 20 [0x56, 3] with fl := 1 })
      (fun t => t.pc == 22) = true := by decide

/-- Vector T15: no flag set. -/
theorem test_jne_at_reset :
    nextHas (step (start #v[0, 0, 0, 9, 0, 0, 0, 0] 0 [0x56, 3])) (fun t => t.pc == 9) = true := by
  decide

/-! ## Faults before and at execution, in order -/

/-- Vector DC1. -/
theorem test_fetch_at_256 : faultsWith .outOfBoundsAccess (start r0s 256 []) = true := by decide

/-- Vectors DC2, DC6, DC12. -/
theorem test_unsupported_opcode :
    faultsWith .unsupportedOpcode (start r0s 0 [0x00]) = true ∧
    faultsWith .unsupportedOpcode (start r0s 0 [0xC0]) = true ∧
    faultsWith .unsupportedOpcode (start r0s 255 [0x00]) = true := by decide

/-- Vectors DC4, DC5, DC13. -/
theorem test_unsupported_alu :
    faultsWith .unsupportedALUOperation (start r0s 0 [0xE0]) = true ∧
    faultsWith .unsupportedALUOperation (start r0s 0 [0x20]) = true ∧
    faultsWith .unsupportedALUOperation (start r0s 255 [0xA4]) = true := by decide

/-- Vectors DC8, DC9, X6: the operand fetch comes before the register check. -/
theorem test_operand_fetch_fault :
    faultsWith .outOfBoundsAccess (start r0s 255 [0x47]) = true ∧
    faultsWith .outOfBoundsAccess (start r0s 254 [0x82, 0x00]) = true ∧
    faultsWith .outOfBoundsAccess (start r0s 254 [0x82, 0x08]) = true := by decide

/-- Vectors X2, X3, X4, X5: the register check comes before the instruction's own fault. -/
theorem test_register_check_first :
    faultsWith .invalidRegister (start r0s 0 [0xA3, 8, 1]) = true ∧
    faultsWith .invalidRegister (start r0s 0 [0xA3, 0, 9]) = true ∧
    faultsWith .invalidRegister { start r0s 0 [0x45, 8] with sp := 0x00 } = true ∧
    faultsWith .invalidRegister (start r0s 254 [0x50, 9]) = true := by decide

/-- R68: the tuple shows the registers before the write, and bytes the instruction does not use. -/
theorem test_trace : nextHas (step (start (r01 9 0) 0 [0x46, 0, 0xA7]))
    (fun t => t.trace == [{ pc := 0, ir := 0x46, op1 := 0, op2 := 0xA7, regs := r01 9 0 }]) = true := by
  decide

/-- R31: a byte at 256 or above is shown as 0x00; R62, R65: the latches hold what was read. -/
theorem test_trace_at_255 : nextHas (step { start r0s 255 [0x01] with latches := ⟨1, 2, 3⟩ })
    (fun t => t.trace == [{ pc := 255, ir := 0x01, op1 := 0, op2 := 0, regs := r0s }] &&
      t.latches == ⟨0x01, 2, 3⟩) = true := by decide

/-! ## Load, reset, placement -/

theorem test_load :
    nextHas (load (some [0x82, 0x00, 0x08])) (fun t => t == start r0s 0 [0x82, 0x00, 0x08]) = true := by
  decide

theorem test_load_missing : load none = .fault .programNotFound := rfl

theorem test_placed_runs :
    nextHas (step (State.reset.withFetchWord 24 0x050182)) (fun t => getReg t 1 == 5) = true := by decide

/-! ## Witnesses: the hypotheses of the statements are met -/

/-- A state about to run a three-byte instruction. -/
def atAdd : State := start (r01 200 100) 0 [0xA0, 0, 1]

/-- A state about to run HLT. -/
def atHlt : State := start r0s 255 [0x01]

theorem witness_EncodeOfDecode :
    decode [0x82, 0xFF, 0x00, 0x01] = .ok (.ldi 0xFF 0x00, [0x01]) := by rfl

theorem witness_LengthFromOpcodeByte :
    decode (0xA7 :: [0x02, 0x01, 0x33]) = .ok (.cmp 2 1, [0x33]) ∧
    decode (0x01 :: ([] : List Byte)) = .ok (.hlt, []) ∧ (0xA7 : Byte).toNat / 64 ≤ [0, 0].length := by
  refine ⟨rfl, rfl, by decide⟩

theorem witness_StepRunsDecodedInstruction : atAdd.status = .running ∧
    decode (fetchWindow atAdd) = .ok (.add 0 1, []) ∧ wellFormed (.add 0 1) = true :=
  ⟨rfl, rfl, by decide⟩

theorem witness_StoppedEngineDoesNothing :
    ({ atAdd with status := .halted } : State).status ≠ .running ∧
    ({ atAdd with status := .faulted .invalidRegister } : State).status ≠ .running := by decide

theorem witness_OpcodeFetch : atHlt.status = .running ∧ atHlt.pc.toNat < 256 ∧
    (start r0s 256 []).status = .running ∧ (start r0s 256 []).pc.toNat = 256 := by decide

theorem witness_FetchFaultsInOrder_pc :
    (start r0s 256 []).status = .running ∧ 256 ≤ (start r0s 256 []).pc.toNat := by decide

/-- States whose next fetch is an unknown ALU byte, an unknown other byte, a missing operand byte. -/
def atBadAlu : State := start r0s 255 [0xA4]
def atBadOpcode : State := start r0s 255 [0xC0]
def atLastLdi : State := start r0s 254 [0x82, 0]

theorem witness_FetchFaultsInOrder_alu : atBadAlu.status = .running ∧ atBadAlu.pc.toNat < 256 ∧
    (memGet atBadAlu.mem atBadAlu.pc.toNat).getLsbD 5 = true ∧
    memGet atBadAlu.mem atBadAlu.pc.toNat ∉ ([0xA0, 0xA1, 0xA2, 0xA3, 0xA7] : List Byte) := by decide

theorem witness_FetchFaultsInOrder_opcode : atBadOpcode.status = .running ∧
    atBadOpcode.pc.toNat < 256 ∧ (memGet atBadOpcode.mem atBadOpcode.pc.toNat).getLsbD 5 = false ∧
    memGet atBadOpcode.mem atBadOpcode.pc.toNat ∉
      ([0x01, 0x11, 0x45, 0x46, 0x47, 0x50, 0x54, 0x55, 0x56, 0x82] : List Byte) := by decide

theorem witness_FetchFaultsInOrder_operand : atLastLdi.status = .running ∧
    atLastLdi.pc.toNat < 256 ∧
    memGet atLastLdi.mem atLastLdi.pc.toNat ∈ ([0x01, 0x11, 0x45, 0x46, 0x47, 0x50, 0x54, 0x55, 0x56,
      0x82, 0xA0, 0xA1, 0xA2, 0xA3, 0xA7] : List Byte) ∧
    256 < atLastLdi.pc.toNat + (memGet atLastLdi.mem atLastLdi.pc.toNat).toNat / 64 + 1 := by decide

/-- Both arms: one instruction faults, by each of the two points, and one completes. -/
theorem witness_ExecutionFaultsExactly : atAdd.status = .running ∧
    executionFault (.add 0 8) atAdd = some .invalidRegister ∧
    executionFault (.div 0 2) atAdd = some .divisionByZero ∧
    executionFault (.add 0 1) atAdd = none ∧ executionFault .hlt atAdd = none := by decide

theorem witness_FaultsArePrecise : (start (r01 10 0) 0 [0xA3, 0, 1]).status = .running ∧
    ∃ t, step (start (r01 10 0) 0 [0xA3, 0, 1]) = .next t ∧ t.status = .faulted .divisionByZero :=
  ⟨rfl, _, rfl, rfl⟩

theorem witness_HaltedExactlyByHlt : atHlt.status = .running ∧
    ∃ t, step atHlt = .next t ∧ t.status = .halted := ⟨rfl, _, rfl, rfl⟩

theorem witness_StepKeepsInv : Inv atAdd ∧ ∃ t, step atAdd = .next t ∧ getReg t 0 = 44 :=
  ⟨⟨by decide, by decide, .inl rfl, by decide⟩, _, rfl, by decide⟩

theorem witness_InvAfterLoadAndRun : ∃ s t, load (some [0x82, 0x00, 0x08]) = .next s ∧
    Host.Core.run core 1 s = .next t ∧ getReg t 0 = 8 := ⟨_, _, rfl, rfl, by decide⟩

/-- For all statements whose hypotheses are a next state of `exec`: an instruction that is no CMP, a branch
and another FL with the same E bit, and a CMP. -/
theorem witness_FlagsWrittenByCmpReadByBranches :
    (∃ t, exec (.add 0 1) atAdd = .next t) ∧ (∀ ra rb, Instr.add 0 1 ≠ .cmp ra rb) ∧
    (∃ t, exec (.jeq 0) atAdd = .next t) ∧ (0b00000100 : Byte).getLsbD 0 = atAdd.fl.getLsbD 0 ∧
    (∃ t, exec (.cmp 0 1) atAdd = .next t) ∧ wellFormed (.cmp 0 1) = true :=
  ⟨⟨_, rfl⟩, fun _ _ h => (nomatch h), ⟨_, rfl⟩, by decide, ⟨_, rfl⟩, by decide⟩

theorem witness_RegistersReadAndWritten : (∃ t, exec (.ldi 0 5) atAdd = .next t) ∧
    regByte 1 ∉ registersWritten (.ldi 0 5) ∧ regByte 0 ∉ registersRead (.ldi 0 5) ∧
    regByte 0 ∈ registersWritten (.ldi 0 5) := ⟨⟨_, rfl⟩, by decide⟩

theorem witness_MemoryAccesses : atAdd.mem.wf = true ∧
    (∃ t, exec (.push 0) atAdd = .next t ∧ memGet t.mem 0xF3 ≠ memGet atAdd.mem 0xF3) ∧
    memGet [(7, 9)] atAdd.sp.toNat = memGet atAdd.mem atAdd.sp.toNat ∧
    decode (fetchWindow atAdd) = .ok (.add 0 1, []) ∧
    (∀ k, k < (encode (.add 0 1)).length →
      memGet (memSet atAdd.mem 200 1) (atAdd.pc.toNat + k) = memGet atAdd.mem (atAdd.pc.toNat + k)) :=
  ⟨by decide, ⟨_, rfl, by decide⟩, by decide, rfl, by decide⟩

/-- A fault, each of the four stack instructions up to an end of the stack, and another instruction. -/
theorem witness_StackPointerMoves : atAdd.status = .running ∧
    (∃ t, exec (.push 0) { atAdd with sp := 0x00 } = .next t ∧ ∃ r, t.status = .faulted r) ∧
    (∃ t, exec (.push 0) { atAdd with sp := 0x01 } = .next t ∧ t.sp = 0x00 ∧
      ∀ r, t.status ≠ .faulted r) ∧
    (∃ t, exec (.call 0) { atAdd with sp := 0x01 } = .next t ∧ t.sp = 0x00 ∧
      ∀ r, t.status ≠ .faulted r) ∧
    (∃ t, exec (.pop 0) { atAdd with sp := 0xFE } = .next t ∧ t.sp = 0xFF ∧
      ∀ r, t.status ≠ .faulted r) ∧
    (∃ t, exec .ret { atAdd with sp := 0xFE } = .next t ∧ t.sp = 0xFF ∧ ∀ r, t.status ≠ .faulted r) ∧
    (∃ t, exec (.add 0 1) atAdd = .next t ∧ ∀ r, t.status ≠ .faulted r) :=
  ⟨rfl, ⟨_, rfl, _, rfl⟩, ⟨_, rfl, by decide, nofun⟩, ⟨_, rfl, by decide, nofun⟩,
    ⟨_, rfl, by decide, nofun⟩, ⟨_, rfl, by decide, nofun⟩, ⟨_, rfl, nofun⟩⟩

/-- Vectors T11 to T14 for the branches: R3 = 9, PC = 20. -/
def atBranch (op fl : Byte) : State :=
  { start #v[0, 0, 0, 9, 0, 0, 0, 0] 20 [op, 3] with fl := fl }

/-- Every arm, each branch taken and not taken: the instruction completes. -/
theorem witness_PcAfterInstruction_exec : atAdd.status = .running ∧ (atBranch 0x55 1).status = .running ∧
    (∃ t, exec (.add 0 1) atAdd = .next t ∧ t.pc = 3 ∧ ∀ r, t.status ≠ .faulted r) ∧
    (∃ t, exec .hlt atAdd = .next t ∧ t.pc = 1 ∧ ∀ r, t.status ≠ .faulted r) ∧
    (∃ t, exec (.call 0) atAdd = .next t ∧ t.pc = 200 ∧ ∀ r, t.status ≠ .faulted r) ∧
    (∃ t, exec (.jmp 1) atAdd = .next t ∧ t.pc = 100 ∧ ∀ r, t.status ≠ .faulted r) ∧
    (∃ t, exec .ret { atAdd with sp := 0x00 } = .next t ∧ t.pc = 0xA0 ∧ ∀ r, t.status ≠ .faulted r) ∧
    (∃ t, exec (.jeq 3) (atBranch 0x55 1) = .next t ∧ t.pc = 9 ∧ ∀ r, t.status ≠ .faulted r) ∧
    (∃ t, exec (.jeq 3) (atBranch 0x55 2) = .next t ∧ t.pc = 22 ∧ ∀ r, t.status ≠ .faulted r) ∧
    (∃ t, exec (.jne 3) (atBranch 0x56 4) = .next t ∧ t.pc = 9 ∧ ∀ r, t.status ≠ .faulted r) ∧
    (∃ t, exec (.jne 3) (atBranch 0x56 1) = .next t ∧ t.pc = 22 ∧ ∀ r, t.status ≠ .faulted r) :=
  ⟨rfl, rfl, ⟨_, rfl, by decide, nofun⟩, ⟨_, rfl, by decide, nofun⟩, ⟨_, rfl, by decide, nofun⟩,
    ⟨_, rfl, by decide, nofun⟩, ⟨_, rfl, by decide, nofun⟩, ⟨_, rfl, by decide, nofun⟩,
    ⟨_, rfl, by decide, nofun⟩, ⟨_, rfl, by decide, nofun⟩, ⟨_, rfl, by decide, nofun⟩⟩

theorem witness_PcAfterInstruction_step : atHlt.status = .running ∧
    decode (fetchWindow atHlt) = .ok (.hlt, []) ∧
    ∃ t, step atHlt = .next t ∧ t.pc = 256 ∧ ∀ r, t.status ≠ .faulted r :=
  ⟨rfl, rfl, _, rfl, by decide, nofun⟩

theorem witness_OutOnlyByPrn : atAdd.status = .running ∧
    (∃ t, exec (.prn 8) atAdd = .next t ∧ ∃ r, t.status = .faulted r) ∧
    (∃ t, exec (.prn 0) atAdd = .next t ∧ t.out = [200] ∧ ∀ r, t.status ≠ .faulted r) ∧
    (∃ t, exec (.add 0 1) atAdd = .next t ∧ ∀ r, t.status ≠ .faulted r) :=
  ⟨rfl, ⟨_, rfl, _, rfl⟩, ⟨_, rfl, by decide, nofun⟩, ⟨_, rfl, nofun⟩⟩

theorem witness_TraceOfStep :
    (atAdd.status = .running ∧ (∃ t, step atAdd = .next t) ∧
      ∃ i rest, decode (fetchWindow atAdd) = .ok (i, rest)) ∧
    ((start r0s 255 [0x47]).status = .running ∧ (∃ t, step (start r0s 255 [0x47]) = .next t) ∧
      ∃ e, decode (fetchWindow (start r0s 255 [0x47])) = .error e) :=
  ⟨⟨rfl, ⟨_, rfl⟩, _, _, rfl⟩, rfl, ⟨_, rfl⟩, _, rfl⟩

theorem witness_AddResult_LdiResult_IllFormedRaisesInvalidRegister : 7 < (8 : Byte).toNat ∧ 7 < (255 : Byte).toNat ∧
    wellFormed (.add 7 8) = false ∧ wellFormed (.push 8) = false := by decide

theorem witness_AddResult_operand_bytes : (start r0s 254 [0xA0, 0]).status = .running ∧
    memGet (start r0s 254 [0xA0, 0]).mem (start r0s 254 [0xA0, 0]).pc.toNat = 0xA0 ∧
    (start r0s 254 [0xA0, 0]).pc = 254 := by decide

theorem witness_LdiResult_operand_bytes : (start r0s 255 [0x82]).status = .running ∧
    memGet (start r0s 255 [0x82]).mem (start r0s 255 [0x82]).pc.toNat = 0x82 ∧
    (start r0s 255 [0x82]).pc = 255 := by decide

theorem witness_DivResult : (getReg atAdd 1).toNat ≠ 0 ∧ (getReg atAdd 2).toNat = 0 := by decide

/-- Room for one byte, and none. -/
theorem witness_PushResult : ({ atAdd with sp := 0x01 } : State).mem.wf = true ∧
    ({ atAdd with sp := 0x01 } : State).sp ≠ 0x00 ∧ ({ atAdd with sp := 0x00 } : State).sp = 0x00 ∧
    ({ atAdd with sp := 0x00 } : State).mem.wf = true := by decide

theorem witness_PopResult_RetResult : ({ atAdd with sp := 0xFE } : State).sp ≠ 0xFF ∧
    ({ atAdd with sp := 0xFF } : State).sp = 0xFF := by decide

theorem witness_PushThenPop_StoreSeenByNextFetch :
    atAdd.mem.wf = true ∧ atAdd.sp ≠ 0x00 ∧ atAdd.status = .running ∧
    (∃ t, exec (.push 0) atAdd = .next t ∧ t.status = .running) ∧
    (∃ t, exec (.call 0) atAdd = .next t ∧ t.status = .running) :=
  ⟨by decide, by decide, rfl, ⟨_, rfl, rfl⟩, ⟨_, rfl, rfl⟩⟩

/-- Vectors T4 and T3: the last PC from which a CALL completes, and the first from which it faults. -/
theorem witness_CallResult_CallThenRet :
    (start r0s 253 [0x50, 1]).mem.wf = true ∧ (start r0s 253 [0x50, 1]).pc.toNat + 2 ≤ 255 ∧
    (start r0s 253 [0x50, 1]).sp ≠ 0x00 ∧ 255 < (start r0s 254 [0x50, 1]).pc.toNat + 2 ∧
    (start r0s 254 [0x50, 1]).mem.wf = true := by decide

theorem witness_CallThenRet_return : ∃ t, exec (.call 1) (start (r01 0 7) 253 [0x50, 1]) = .next t ∧
    ({ t with pc := 9 } : State).sp = t.sp ∧
    memGet ({ t with pc := 9 } : State).mem t.sp.toNat = memGet t.mem t.sp.toNat := ⟨_, rfl, rfl, rfl⟩

theorem witness_BranchResult : (Instr.jeq (regByte 7) = .jeq (regByte 7) ∨
    Instr.jeq (regByte 7) = .jne (regByte 7)) ∧
    (Instr.jne (regByte 0) = .jeq (regByte 0) ∨ Instr.jne (regByte 0) = .jne (regByte 0)) := by decide

theorem witness_AddThenSub : (0 : Fin 8) ≠ 7 := by decide

theorem witness_LoadContract_ResetInputDiscardsState :
    (List.replicate 256 (0x01 : Byte)).length ≤ 256 ∧ 256 < (List.replicate 257 (0x01 : Byte)).length := by
  rw [List.length_replicate, List.length_replicate]; decide

theorem witness_InspectWhenStopped : ({ atAdd with status := .halted } : State).status ≠ .running ∧
    ∃ t, step { atAdd with status := .halted } = .next t := ⟨by decide, _, rfl⟩

theorem witness_PlacedWordRuns : State.reset.mem.wf = true ∧
    decodeTableWord 24 0x0201A0 = some (.add 1 2) ∧ placeAt (start r0s 253 []) = 253 ∧
    placeAt (start r0s 254 []) = 0 := by decide

end Sys2Proof.Tests
end

section
/-! PROOF. The obligations over FL and the general-purpose registers (spec/10_state.md R14, R25). Each is a
commuting fact: `exec` run after an update of state it does not read is `exec` followed by that update. -/

namespace Sys2Proof.Proofs

open Sys2Proof.Machine Sys2Proof.Laws

/-! ## Instructions with an operand byte that names no register -/

theorem wellFormed_eq_false_iff (i : Instr) :
    wellFormed i = false ↔ ∃ p ∈ registerOperands i, 8 ≤ p.toNat := by
  simp [wellFormed, isRegister]

/-- Whatever the instruction, a register operand above 7 raises InvalidRegister (R54, R69). -/
theorem exec_of_illFormed {i : Instr} (h : wellFormed i = false) (s : State) :
    exec i s = .next (raiseFault .invalidRegister s) := by
  have hill := (wellFormed_eq_false_iff i).mp h
  cases i with
  | hlt | ret => simp [registerOperands] at hill
  | push p | pop p | prn p | call p | jmp p | jeq p | jne p | ldi p _ =>
    have hp : 8 ≤ p.toNat := by simpa [registerOperands] using hill
    change conclude s (regIdx p >>= _) = _
    rw [regIdx_error hp]; rfl
  | add p q | sub p q | mul p q | div p q =>
    have hpq : 8 ≤ p.toNat ∨ 8 ≤ q.toNat := by simpa [registerOperands] using hill
    change conclude s (aluWrite _ p q s) = _
    rw [aluWrite_invalid _ s hpq]; rfl
  | cmp p q =>
    have hpq : 8 ≤ p.toNat ∨ 8 ≤ q.toNat := by simpa [registerOperands] using hill
    change conclude s (regPair p q >>= _) = _
    rw [regPair_error hpq]; rfl

/-- For an instruction that faults under a condition and completes otherwise: an update of the state that
commutes with both ends commutes with the whole. -/
theorem guarded_next_comm {c : Prop} [Decidable c] {x y x' y' t : State} (g : State → State)
    (h : (if c then .next x else .next y : Host.Outcome State Fault Refusal) = .next t)
    (hx : x' = g x) (hy : y' = g y) :
    (if c then .next x' else .next y' : Host.Outcome State Fault Refusal) = .next (g t) := by
  subst hx hy
  split at h <;> rename_i hc <;> cases h
  · exact if_pos hc
  · exact if_neg hc

/-! ## The flags register (R25) -/

/-- An instruction that is not CMP carries FL through: with `f` in FL before, the same next state with `f`
in FL after. JEQ and JNE choose their branch by E alone, so `f` need only agree there. -/
theorem exec_setFl {i : Instr} {s t : State} {f : Byte} (hcmp : ∀ ra rb, i ≠ .cmp ra rb)
    (hE : (∃ ra, i = .jeq ra ∨ i = .jne ra) → flagE f = flagE s.fl) (h : exec i s = .next t) :
    exec i (setFl f s) = .next (setFl f t) := by
  induction i using instr_operand_cases with
  | ill i hw => rw [exec_of_illFormed hw] at h ⊢; cases h; rfl
  | hlt => cases h; rfl
  | prn | jmp | ldi | add | sub | mul =>
    simp only [exec_prn, exec_jmp, exec_ldi, exec_add, exec_sub, exec_mul] at h ⊢
    cases h; rfl
  | push | pop | ret | call | div =>
    simp only [exec_push, exec_pop, exec_ret, exec_call, exec_div] at h ⊢
    exact guarded_next_comm (setFl f) h rfl rfl
  | jeq a =>
    rw [exec_jeq] at h ⊢; cases h
    rw [setFl_fl, hE ⟨_, .inl rfl⟩]; split <;> rfl
  | jne a =>
    rw [exec_jne] at h ⊢; cases h
    rw [setFl_fl, hE ⟨_, .inr rfl⟩]; split <;> rfl
  | cmp a b => exact absurd rfl (hcmp _ _)

/-- The case `f = s.fl` of `exec_setFl`: an instruction that carries every FL through leaves it. -/
theorem exec_fl_of_not_cmp {i : Instr} {s t : State} (hcmp : ∀ ra rb, i ≠ .cmp ra rb)
    (h : exec i s = .next t) : t.fl = s.fl := by
  have hsame : exec i s = .next (setFl s.fl t) := exec_setFl hcmp (fun _ => rfl) h
  have ht : t = setFl s.fl t := Host.Outcome.next.inj (h.symm.trans hsame)
  calc t.fl = (setFl s.fl t).fl := congrArg State.fl ht
    _ = s.fl := rfl

/-- CMP on two registers writes all of FL, whatever stood there. -/
theorem exec_cmp_setFl (a b : Fin 8) (f : Byte) (s : State) :
    exec (.cmp (regByte a) (regByte b)) (setFl f s) = exec (.cmp (regByte a) (regByte b)) s := by
  rw [exec_cmp, exec_cmp]; rfl

theorem compareFlags_one_flag (x y : Byte) :
    compareFlags x y = 1 ∨ compareFlags x y = 2 ∨ compareFlags x y = 4 := by
  rcases compareFlags_cases x y with ⟨_, h⟩ | ⟨_, h⟩ | ⟨_, h⟩ <;> simp [h]

/-- Settles O18: every instruction but CMP carries FL through, and CMP overwrites it. -/
theorem flagsWrittenByCmpReadByBranches : Obligations.FlagsWrittenByCmpReadByBranches := by
  refine ⟨fun i s t h hcmp => exec_fl_of_not_cmp hcmp h,
    fun a b s => ⟨_, exec_cmp a b s, compareFlags_one_flag _ _⟩, fun i s t f hE h => ?_⟩
  change ∃ u, exec i (setFl f s) = .next u ∧ _
  by_cases hcmp : ∀ ra rb, i ≠ .cmp ra rb
  · exact ⟨setFl f t, exec_setFl hcmp hE h, rfl, fun _ => rfl,
      fun ⟨ra, rb, hi⟩ => absurd hi (hcmp ra rb)⟩
  · cases hw : wellFormed i with
    | false =>
      rw [exec_of_illFormed hw] at h ⊢; cases h
      exact ⟨_, rfl, rfl, fun _ => rfl, fun _ hw' => nomatch hw'⟩
    | true =>
      push Not at hcmp
      obtain ⟨ra, rb, rfl⟩ := hcmp
      simp only [wellFormed, registerOperands, List.all_cons, List.all_nil, Bool.and_true,
        Bool.and_eq_true] at hw
      obtain ⟨ha, hb⟩ := hw
      obtain ⟨a, rfl⟩ := regByte_of_isRegister ha
      obtain ⟨b, rfl⟩ := regByte_of_isRegister hb
      exact ⟨t, (exec_cmp_setFl a b f s).trans h, rfl, fun hne => absurd rfl (hne _ _), fun _ _ => rfl⟩

/-! ## The general-purpose registers (R14) -/

@[simp] theorem regByte_inj {a b : Fin 8} : regByte a = regByte b ↔ a = b :=
  ⟨regByte_injective, congrArg regByte⟩

theorem setReg_setReg_same (j : Fin 8) (v w : Byte) (s : State) :
    setReg j w (setReg j v s) = setReg j w s := by
  simp [setReg]

theorem setReg_setReg_comm {i j : Fin 8} (h : i ≠ j) (v w : Byte) (s : State) :
    setReg i w (setReg j v s) = setReg j v (setReg i w s) := by
  unfold setReg
  exact congrArg (fun rs : RegFile => { s with regs := rs })
    (Vector.set_comm v w (Fin.val_ne_of_ne h.symm))

theorem getReg_setReg_of_ne {i j : Fin 8} (h : i ≠ j) (v : Byte) (s : State) :
    getReg (setReg i v s) j = getReg s j := by
  rw [getReg_setReg, if_neg h.symm]

theorem ne_of_regByte_not_mem_singleton {a j : Fin 8} (h : regByte j ∉ [regByte a]) : j ≠ a := by
  simpa using h

theorem ne_of_regByte_not_mem_pair {a b j : Fin 8} (h : regByte j ∉ [regByte a, regByte b]) :
    j ≠ a ∧ j ≠ b := by
  simpa using h

/-- Everything `exec` can do to the registers: keep them, or set one its row of R14 lists as written. -/
theorem exec_regs_cases {i : Instr} {s t : State} (h : exec i s = .next t) :
    t.regs = s.regs ∨
      ∃ (a : Fin 8) (v : Byte), regByte a ∈ registersWritten i ∧ t.regs = s.regs.set a v := by
  induction i using instr_operand_cases with
  | ill i hw => rw [exec_of_illFormed hw] at h; cases h; exact .inl rfl
  | hlt => cases h; exact .inl rfl
  | prn | jmp | cmp =>
    simp only [exec_prn, exec_jmp, exec_cmp] at h
    cases h; exact .inl rfl
  | jeq | jne =>
    simp only [exec_jeq, exec_jne] at h
    cases h; left; split <;> rfl
  | push | call | ret =>
    simp only [exec_push, exec_call, exec_ret] at h
    split at h <;> cases h <;> exact .inl rfl
  | ldi a | add a | sub a | mul a =>
    simp only [exec_ldi, exec_add, exec_sub, exec_mul] at h
    cases h; exact .inr ⟨a, _, List.mem_singleton_self _, rfl⟩
  | pop a | div a =>
    simp only [exec_pop, exec_div] at h
    split at h <;> cases h
    · exact .inl rfl
    · exact .inr ⟨a, _, List.mem_singleton_self _, rfl⟩

theorem exec_getReg_of_not_written {i : Instr} {s t : State} {j : Fin 8} (h : exec i s = .next t)
    (hj : regByte j ∉ registersWritten i) : getReg t j = getReg s j := by
  rcases exec_regs_cases h with hregs | ⟨a, v, ha, hregs⟩
  · exact getReg_congr s t hregs j
  · have hja : j ≠ a := by rintro rfl; exact hj ha
    rw [getReg_congr (setReg a v s) t hregs, getReg_setReg, if_neg hja]

/-- A register an instruction neither reads nor writes is carried through it. -/
theorem exec_setReg_of_not_used {i : Instr} {s t : State} {j : Fin 8} {v : Byte}
    (hr : regByte j ∉ registersRead i) (hw : regByte j ∉ registersWritten i) (h : exec i s = .next t) :
    exec i (setReg j v s) = .next (setReg j v t) := by
  induction i using instr_operand_cases with
  | ill i hi => rw [exec_of_illFormed hi] at h ⊢; cases h; rfl
  | hlt => cases h; rfl
  | prn | jmp =>
    have hja := ne_of_regByte_not_mem_singleton hr
    simp only [exec_prn, exec_jmp, getReg_setReg_of_ne hja] at h ⊢
    cases h; rfl
  | jeq | jne =>
    have hja := ne_of_regByte_not_mem_singleton hr
    simp only [exec_jeq, exec_jne, getReg_setReg_of_ne hja] at h ⊢
    cases h
    rw [setReg_fl]; split <;> rfl
  | cmp =>
    have ⟨hja, hjb⟩ := ne_of_regByte_not_mem_pair hr
    simp only [exec_cmp, getReg_setReg_of_ne hja, getReg_setReg_of_ne hjb] at h ⊢
    cases h; rfl
  | push | call =>
    have hja := ne_of_regByte_not_mem_singleton hr
    simp only [exec_push, exec_call, getReg_setReg_of_ne hja] at h ⊢
    exact guarded_next_comm (setReg j v) h rfl rfl
  | ret =>
    rw [exec_ret] at h ⊢
    exact guarded_next_comm (setReg j v) h rfl rfl
  | ldi =>
    have hja := ne_of_regByte_not_mem_singleton hw
    rw [exec_ldi] at h ⊢; cases h
    rw [setReg_setReg_comm hja.symm]; rfl
  | add | sub | mul =>
    have ⟨hja, hjb⟩ := ne_of_regByte_not_mem_pair hr
    simp only [exec_add, exec_sub, exec_mul, getReg_setReg_of_ne hja, getReg_setReg_of_ne hjb,
      setReg_setReg_comm hja.symm] at h ⊢
    cases h; rfl
  | div =>
    have ⟨hja, hjb⟩ := ne_of_regByte_not_mem_pair hr
    simp only [exec_div, getReg_setReg_of_ne hja, getReg_setReg_of_ne hjb,
      setReg_setReg_comm hja.symm] at h ⊢
    exact guarded_next_comm (setReg j v) h rfl rfl
  | pop =>
    have hja := ne_of_regByte_not_mem_singleton hw
    rw [exec_pop] at h ⊢
    exact guarded_next_comm (setReg j v) h rfl
      (congrArg (advance 2) (setReg_setReg_comm hja.symm v _ (setSp (s.sp + 1) s)))

/-- LDI and POP alone write a register they do not read. -/
theorem written_not_read_cases {i : Instr} {r : Byte} (hw : r ∈ registersWritten i)
    (hr : r ∉ registersRead i) : (∃ v, i = .ldi r v) ∨ i = .pop r := by
  cases i with
  | ldi ra v => left; exact ⟨v, by rw [List.mem_singleton.mp hw]⟩
  | pop ra => right; rw [List.mem_singleton.mp hw]
  | add ra rb | sub ra rb | mul ra rb | div ra rb =>
    have hra : r = ra := List.mem_singleton.mp hw
    exact absurd (hra ▸ List.mem_cons_self) hr
  | hlt | ret | push | prn | call | jmp | jeq | jne | cmp => exact absurd hw List.not_mem_nil

/-- The old value of a register that is written and not read is lost, unless the instruction faults. -/
theorem exec_setReg_of_overwritten {i : Instr} {s t : State} {j : Fin 8} {v : Byte}
    (hr : regByte j ∉ registersRead i) (hw : regByte j ∈ registersWritten i) (h : exec i s = .next t) :
    exec i (setReg j v s) = .next t ∨
      ∃ r, t = raiseFault r s ∧ exec i (setReg j v s) = .next (setReg j v t) := by
  obtain ⟨w, rfl⟩ | rfl := written_not_read_cases hw hr
  · left; rw [exec_ldi, setReg_setReg_same, ← exec_ldi, h]
  · rw [exec_pop] at h ⊢
    split at h <;> rename_i hc <;> cases h
    · exact .inr ⟨_, rfl, if_pos hc⟩
    · left
      refine (if_neg hc).trans (congrArg Host.Outcome.next ?_)
      exact congrArg (advance 2) (setReg_setReg_same j v _ (setSp (s.sp + 1) s))

/-- Settles O19: a register the row does not list as written is kept; one it does not list as read is carried
through when unused, and overwritten by LDI and POP. -/
theorem registersReadAndWritten : Obligations.RegistersReadAndWritten := by
  refine ⟨fun i s t j => exec_getReg_of_not_written, fun i s t j v h hr => ?_⟩
  by_cases hw : regByte j ∈ registersWritten i
  · rcases exec_setReg_of_overwritten (v := v) hr hw h with hu | ⟨r, rfl, hu⟩
    · exact ⟨t, hu, rfl, fun _ => .inr rfl⟩
    · exact ⟨_, hu, setReg_setReg_same j v 0 _, fun _ => .inl ⟨r, rfl⟩⟩
  · exact ⟨_, exec_setReg_of_not_used hr hw h, setReg_setReg_same j v 0 t, fun hw' => absurd hw' hw⟩

end Sys2Proof.Proofs
end

section
/-! PROOF. The obligation over instruction length (spec/30_encoding.md R48, R58): reading the operand bytes
is inverted (`decodeOperands_ok`), and succeeds on any long enough tail (`decodeOperands_of_length_le`). -/

namespace Sys2Proof.Proofs

open Sys2Proof.Laws

/-! ## Bits 7:6 of an opcode byte count the operand bytes (R48) -/

theorem operandBytes_length (i : Instr) :
    (operandBytes i).length = (opcodeByte (opcodeOf i)).toNat / 64 := by
  cases i <;> simp [operandBytes, opcodeOf, opcodeByte]

theorem encode_length (i : Instr) :
    (encode i).length = (opcodeByte (opcodeOf i)).toNat / 64 + 1 :=
  congrArg (· + 1) (operandBytes_length i)

theorem opcodeByte_lengthField_le_two (o : Opcode) : (opcodeByte o).toNat / 64 ≤ 2 := by
  cases o <;> decide

/-! ## Reading the operand bytes (R51, R65) -/

theorem decodeOne_ok {mk : Byte → Instr} {tail rest : List Byte} {i : Instr}
    (h : decodeOne mk tail = .ok (i, rest)) : ∃ ra, i = mk ra ∧ tail = ra :: rest := by
  cases tail with
  | nil => cases h
  | cons ra tail => cases h; exact ⟨ra, rfl, rfl⟩

theorem decodeTwo_ok {mk : Byte → Byte → Instr} {tail rest : List Byte} {i : Instr}
    (h : decodeTwo mk tail = .ok (i, rest)) : ∃ p q, i = mk p q ∧ tail = p :: q :: rest := by
  match tail, h with
  | p :: q :: _, rfl => exact ⟨p, q, rfl, rfl⟩

/-- An instruction that is read has the opcode it was read for, and its operand bytes are the first ones. -/
theorem decodeOperands_ok {o : Opcode} {tail rest : List Byte} {i : Instr}
    (h : decodeOperands o tail = .ok (i, rest)) :
    opcodeOf i = o ∧ tail = operandBytes i ++ rest := by
  cases o with
  | hlt | ret => cases h; exact ⟨rfl, rfl⟩
  | push | pop | prn | call | jmp | jeq | jne =>
    obtain ⟨ra, rfl, rfl⟩ := decodeOne_ok h
    exact ⟨rfl, rfl⟩
  | ldi | add | sub | mul | div | cmp =>
    obtain ⟨p, q, rfl, rfl⟩ := decodeTwo_ok h
    exact ⟨rfl, rfl⟩

theorem decodeOne_of_length_le (mk : Byte → Instr) {tail : List Byte} (h : 1 ≤ tail.length) :
    ∃ i, decodeOne mk tail = .ok (i, tail.drop 1) := by
  match tail, h with
  | ra :: _, _ => exact ⟨mk ra, rfl⟩

theorem decodeTwo_of_length_le (mk : Byte → Byte → Instr) {tail : List Byte} (h : 2 ≤ tail.length) :
    ∃ i, decodeTwo mk tail = .ok (i, tail.drop 2) := by
  match tail, h with
  | p :: q :: _, _ => exact ⟨mk p q, rfl⟩

/-- As many operand bytes as the opcode byte asks for are enough, whatever they are. -/
theorem decodeOperands_of_length_le {o : Opcode} {tail : List Byte}
    (h : (opcodeByte o).toNat / 64 ≤ tail.length) :
    ∃ i, decodeOperands o tail = .ok (i, tail.drop ((opcodeByte o).toNat / 64)) := by
  cases o with
  | hlt | ret => exact ⟨_, rfl⟩
  | push | pop | prn | call | jmp | jeq | jne => exact decodeOne_of_length_le _ h
  | ldi | add | sub | mul | div | cmp => exact decodeTwo_of_length_le _ h

/-! ## The decoder -/

/-- Bytes decode to an instruction only when they are its encoding and what follows it. -/
theorem decode_cons_ok {ir : Byte} {tail rest : List Byte} {i : Instr}
    (h : decode (ir :: tail) = .ok (i, rest)) :
    ir = opcodeByte (opcodeOf i) ∧ tail = operandBytes i ++ rest := by
  cases hsel : selectOpcode ir with
  | error e => simp only [decode, hsel] at h; cases h
  | ok o =>
    simp only [decode, hsel] at h
    obtain ⟨rfl, htail⟩ := decodeOperands_ok h
    exact ⟨selectOpcode_ok hsel, htail⟩

/-- Settles O4: a decoded instruction has the opcode its first byte selects (`decode_cons_ok`), and bits 7:6
of that byte count its operand bytes; any tail with that many bytes decodes again. -/
theorem lengthFromOpcodeByte : Obligations.LengthFromOpcodeByte := by
  intro ir tail rest i h
  obtain ⟨rfl, rfl⟩ := decode_cons_ok h
  refine ⟨encode_length i, opcodeByte_lengthField_le_two _, ?_, fun tail' hlen => ?_⟩
  · rw [← operandBytes_length, List.drop_left]
  · obtain ⟨j, hj⟩ := decodeOperands_of_length_le hlen
    refine ⟨j, (decode_opcodeByte _ tail').trans hj, ?_⟩
    rw [encode_length, (decodeOperands_ok hj).1]

end Sys2Proof.Proofs
end

section
/-! PROOF. The obligation over ADD (spec/41_alu.md R74), with the fault of an operand byte past the end of
memory (spec/40_cycle.md R65, R69) for any opcode. -/

namespace Sys2Proof.Proofs

open Sys2Proof.Machine Sys2Proof.Laws

/-! ## A missing operand byte (R65, R69) -/

/-- Fewer operand bytes than the opcode byte counts are no instruction. -/
theorem decodeOperands_of_length_lt {o : Opcode} {tail : List Byte}
    (h : tail.length < (opcodeByte o).toNat / 64) : decodeOperands o tail = .error .operandMissing := by
  cases hdec : decodeOperands o tail with
  | error e => rw [decodeOperands_error hdec]
  | ok r =>
    obtain ⟨i, rest⟩ := r
    obtain ⟨rfl, rfl⟩ := decodeOperands_ok hdec
    rw [List.length_append, operandBytes_length] at h
    omega

/-- With PC inside the memory the window is the byte at PC and then those of the next two that exist. -/
theorem fetchWindow_of_pc_lt {s : State} (h : s.pc.toNat < 256) :
    ∃ tail, fetchWindow s = memGet s.mem s.pc.toNat :: tail ∧ tail.length ≤ 255 - s.pc.toNat := by
  refine ⟨fetchBytes s.mem (s.pc.toNat + 1) 2, ?_, ?_⟩
  · have hread : memRead s.mem s.pc.toNat = .ok (memGet s.mem s.pc.toNat) := if_pos h
    simp only [fetchWindow, fetchBytes, hread]
  · rw [fetchBytes_length]; omega

/-- A supported opcode with an operand byte past address 255 faults, once the latches are loaded. -/
theorem step_of_operand_past_end {s : State} {o : Opcode} (hrun : s.status = .running)
    (hop : memGet s.mem s.pc.toNat = opcodeByte o) (hpc : s.pc.toNat < 256)
    (hend : 255 < s.pc.toNat + (opcodeByte o).toNat / 64) :
    step s = .next (raiseFault .outOfBoundsAccess (latch (fetchWindow s) s)) := by
  obtain ⟨tail, hwin, hlen⟩ := fetchWindow_of_pc_lt hpc
  have hdec : decode (fetchWindow s) = .error .operandMissing := by
    rw [hwin, hop, decode_opcodeByte]
    exact decodeOperands_of_length_lt (by omega)
  simp only [step_running hrun, hdec, decodeFault]

theorem sameArch_raiseFault_latch (r : FaultReason) (bytes : List Byte) (s : State) :
    SameArch s (raiseFault r (latch bytes s)) := ⟨rfl, rfl, rfl, rfl, rfl, rfl⟩

/-! ## ADD -/

theorem aluAdd_toNat (x y : Byte) : (aluAdd x y).toNat = (x.toNat + y.toNat) % 256 :=
  BitVec.toNat_ofNat _ _

@[simp] theorem getReg_advance (n : Nat) (s : State) (j : Fin 8) : getReg (advance n s) j = getReg s j := rfl

/-- A straight-line instruction that writes R`a` keeps the other registers. -/
theorem sameRegsBut_advance_setReg (n : Nat) (a : Fin 8) (v : Byte) (s : State) :
    SameRegsBut a s (advance n (setReg a v s)) :=
  fun _ hj => getReg_setReg_of_ne hj.symm v s

/-- Settles O25: the sum by `exec_add`, an operand byte above 7 by `exec_of_illFormed`, and at 254 and 255
the second operand byte lies past the end of memory. -/
theorem addResult : Obligations.AddResult := by
  refine ⟨fun p q rest => decode_opcodeByte .add _, fun a b s => ⟨_, exec_add a b s, ?_,
    sameRegsBut_advance_setReg _ _ _ _, rfl, rfl, rfl, rfl, fun _ => rfl, rfl, rfl, rfl⟩,
    fun p q s h => exec_of_illFormed ?_ s, fun s hrun hop hpc => ?_⟩
  · rw [getReg_advance, getReg_setReg, if_pos rfl, aluAdd_toNat]
  · have hill : 8 ≤ p.toNat ∨ 8 ≤ q.toNat := h
    exact (wellFormed_eq_false_iff _).mpr (by simpa [registerOperands] using hill)
  · have hpc' : s.pc.toNat = 254 ∨ s.pc.toNat = 255 := hpc.imp (by simp [·]) (by simp [·])
    have hend : 255 < s.pc.toNat + (opcodeByte .add).toNat / 64 := by
      rw [show (opcodeByte .add).toNat / 64 = 2 from rfl]; omega
    exact ⟨_, step_of_operand_past_end (o := .add) hrun hop (by omega) hend, rfl,
      sameArch_raiseFault_latch _ _ s⟩

end Sys2Proof.Proofs
end

section
/-! PROOF. The obligation over LDI (spec/42_load_print_halt.md R79), with the fault of a two-operand opcode at
the last two addresses (spec/40_cycle.md R69). -/

namespace Sys2Proof.Proofs

open Sys2Proof.Machine Sys2Proof.Laws

/-- At 254 and 255 the second operand byte of a three-byte instruction lies past the end of memory. -/
theorem step_of_twoOperands_at_end {s : State} {o : Opcode} (hrun : s.status = .running)
    (hop : memGet s.mem s.pc.toNat = opcodeByte o) (hlen : (opcodeByte o).toNat / 64 = 2)
    (hpc : s.pc = 254 ∨ s.pc = 255) :
    step s = .next (raiseFault .outOfBoundsAccess (latch (fetchWindow s) s)) := by
  have hpc' : s.pc.toNat = 254 ∨ s.pc.toNat = 255 :=
    hpc.imp (congrArg BitVec.toNat) (congrArg BitVec.toNat)
  exact step_of_operand_past_end hrun hop (by omega) (by omega)

/-- Settles O30: the immediate by `exec_ldi`, a register byte above 7 by `exec_of_illFormed`, and the opcode
at 254 or 255 by `step_of_twoOperands_at_end`. -/
theorem ldiResult : Obligations.LdiResult := by
  refine ⟨fun p q rest => decode_opcodeByte .ldi _, fun a imm8 s => ⟨_, exec_ldi a imm8 s, ?_,
    sameRegsBut_advance_setReg _ _ _ _, rfl, rfl, rfl, rfl, fun _ => rfl, rfl, rfl, rfl⟩,
    fun p imm8 s hp => ?_, fun s hrun hop hpc => ?_⟩
  · rw [getReg_advance, getReg_setReg, if_pos rfl]
  · have hill : wellFormed (.ldi p imm8) = false :=
      (wellFormed_eq_false_iff _).mpr ⟨p, List.mem_singleton_self p, hp⟩
    exact exec_of_illFormed hill s
  · exact ⟨_, step_of_twoOperands_at_end (o := .ldi) hrun hop rfl hpc, rfl,
      sameArch_raiseFault_latch _ _ s⟩

end Sys2Proof.Proofs
end

section
/-! PROOF. The obligations over the decoder (spec/30_encoding.md sections 1 to 5): decoding and encoding are
inverse to each other, and a byte outside the opcode map is rejected whatever follows it. -/

namespace Sys2Proof.Proofs

open Sys2Proof.Laws

/-! ## Decoding and encoding (R51, R55) -/

theorem decodeOperands_operandBytes (i : Instr) (rest : List Byte) :
    decodeOperands (opcodeOf i) (operandBytes i ++ rest) = .ok (i, rest) := by
  cases i <;> rfl

theorem decode_encode_append (i : Instr) (rest : List Byte) :
    decode (encode i ++ rest) = .ok (i, rest) :=
  (decode_opcodeByte (opcodeOf i) _).trans (decodeOperands_operandBytes i rest)

/-- Settles O2: the opcode byte selects the instruction's opcode, and its format takes the operand bytes. -/
theorem decodeOfEncode : Obligations.DecodeOfEncode := decode_encode_append

theorem eq_encode_append_of_decode_ok {bytes rest : List Byte} {i : Instr}
    (h : decode bytes = .ok (i, rest)) : bytes = encode i ++ rest := by
  cases bytes with
  | nil => cases h
  | cons ir tail =>
    obtain ⟨rfl, rfl⟩ := decode_cons_ok h
    rfl

/-- Settles O3: `decode_cons_ok` gives the opcode byte and the operand bytes back. -/
theorem encodeOfDecode : Obligations.EncodeOfDecode := fun _ _ _ => eq_encode_append_of_decode_ok

/-- Settles O1: each opcode byte selects its opcode, whatever follows it. -/
theorem opcodeBytesDecode : Obligations.OpcodeBytesDecode := fun p q rest =>
  ⟨decode_encode_append .hlt rest, decode_encode_append .ret rest,
    decode_encode_append (.push p) rest, decode_encode_append (.pop p) rest,
    decode_encode_append (.prn p) rest, decode_encode_append (.call p) rest,
    decode_encode_append (.jmp p) rest, decode_encode_append (.jeq p) rest,
    decode_encode_append (.jne p) rest, decode_encode_append (.ldi p q) rest,
    decode_encode_append (.add p q) rest, decode_encode_append (.sub p q) rest,
    decode_encode_append (.mul p q) rest, decode_encode_append (.div p q) rest,
    decode_encode_append (.cmp p q) rest⟩

/-! ## Opcode bytes outside the map (R56) -/

theorem findOpcode_eq_none_iff {table : List Opcode} {ir : Byte} :
    findOpcode table ir = none ↔ ir ∉ table.map opcodeByte := by
  simp [findOpcode]

theorem selectOpcode_unsupportedOpcode_iff (ir : Byte) :
    selectOpcode ir = .error .unsupportedOpcode ↔
      aluBit ir = false ∧ ir ∉ dispatchOpcodes.map opcodeByte := by
  rw [← findOpcode_eq_none_iff]
  unfold selectOpcode
  cases aluBit ir
  · cases findOpcode dispatchOpcodes ir <;> simp
  · cases findOpcode aluOpcodes ir <;> simp

theorem selectOpcode_unsupportedALUOperation_iff (ir : Byte) :
    selectOpcode ir = .error .unsupportedALUOperation ↔
      aluBit ir = true ∧ ir ∉ aluOpcodes.map opcodeByte := by
  rw [← findOpcode_eq_none_iff]
  unfold selectOpcode
  cases aluBit ir
  · cases findOpcode dispatchOpcodes ir <;> simp
  · cases findOpcode aluOpcodes ir <;> simp

/-- The decoder rejects an opcode byte by name exactly as the dispatch on that byte does. -/
theorem decode_cons_error_iff {ir : Byte} {tail : List Byte} {e : DecodeError}
    (he : e ≠ .operandMissing) : decode (ir :: tail) = .error e ↔ selectOpcode ir = .error e := by
  cases hsel : selectOpcode ir with
  | error e' => simp [decode, hsel]
  | ok o =>
    have hne : decodeOperands o tail ≠ .error e := fun h => he (decodeOperands_error h)
    simp [decode, hsel, hne]

/-- Settles O5: the two names by the dispatch on the opcode byte alone, the two counts by evaluation. -/
theorem unsupportedBytesRejected : Obligations.UnsupportedBytesRejected := by
  refine ⟨fun ir tail => ⟨?_, ?_⟩, by decide +kernel, by decide +kernel⟩
  · exact (decode_cons_error_iff (by decide)).trans (selectOpcode_unsupportedOpcode_iff ir)
  · exact (decode_cons_error_iff (by decide)).trans (selectOpcode_unsupportedALUOperation_iff ir)

end Sys2Proof.Proofs
end

section
/-! PROOF. What `exec` of any instruction can answer, said once: the fault of R69's points 4 and 5, or the
next state of the instruction's rule (`exec_cases`). The obligations over all executed instructions are case
splits over it. -/

namespace Sys2Proof.Proofs

open Sys2Proof.Machine Sys2Proof.Laws

/-! ## The completing instructions, one case per effect -/

/-- `Completes i s t`: instruction `i`, its register operands registers and no fault condition met, takes `s`
to `t`. Tied to the model by `exec_of_completes` and `exec_cases`. -/
inductive Completes : Instr → State → State → Prop
  | hlt (s) : Completes .hlt s (setStatus .halted (advance 1 s))
  | ret (s) (hsp : s.sp ≠ 0xFF) :
      Completes .ret s (setPc (zext9 (memGet s.mem s.sp.toNat)) (setSp (s.sp + 1) s))
  | push (a s) (hsp : s.sp ≠ 0) :
      Completes (.push (regByte a)) s
        (advance 2 (setMem (memSet s.mem (s.sp - 1).toNat (getReg s a)) (setSp (s.sp - 1) s)))
  | pop (a s) (hsp : s.sp ≠ 0xFF) :
      Completes (.pop (regByte a)) s
        (advance 2 (setReg a (memGet s.mem s.sp.toNat) (setSp (s.sp + 1) s)))
  | prn (a s) : Completes (.prn (regByte a)) s (advance 2 (emit (getReg s a) s))
  | call (a s) (hpc : s.pc.toNat + 2 < 256) (hsp : s.sp ≠ 0) :
      Completes (.call (regByte a)) s
        (setPc (zext9 (getReg s a))
          (setMem (memSet s.mem (s.sp - 1).toNat (BitVec.ofNat 8 (s.pc.toNat + 2))) (setSp (s.sp - 1) s)))
  | jmp (a s) : Completes (.jmp (regByte a)) s (setPc (zext9 (getReg s a)) s)
  | jeqTaken (a s) (hE : flagE s.fl = true) :
      Completes (.jeq (regByte a)) s (setPc (zext9 (getReg s a)) s)
  | jeqPassed (a s) (hE : flagE s.fl = false) : Completes (.jeq (regByte a)) s (advance 2 s)
  | jneTaken (a s) (hE : flagE s.fl = false) :
      Completes (.jne (regByte a)) s (setPc (zext9 (getReg s a)) s)
  | jnePassed (a s) (hE : flagE s.fl = true) : Completes (.jne (regByte a)) s (advance 2 s)
  | ldi (a v s) : Completes (.ldi (regByte a) v) s (advance 3 (setReg a v s))
  | add (a b s) :
      Completes (.add (regByte a) (regByte b)) s
        (advance 3 (setReg a (aluAdd (getReg s a) (getReg s b)) s))
  | sub (a b s) :
      Completes (.sub (regByte a) (regByte b)) s
        (advance 3 (setReg a (aluSub (getReg s a) (getReg s b)) s))
  | mul (a b s) :
      Completes (.mul (regByte a) (regByte b)) s
        (advance 3 (setReg a (aluMul (getReg s a) (getReg s b)) s))
  | div (a b s) (hb : (getReg s b).toNat ≠ 0) :
      Completes (.div (regByte a) (regByte b)) s
        (advance 3 (setReg a (BitVec.ofNat 8 ((getReg s a).toNat / (getReg s b).toNat)) s))
  | cmp (a b s) :
      Completes (.cmp (regByte a) (regByte b)) s
        (advance 3 (setFl (compareFlags (getReg s a) (getReg s b)) s))

theorem exec_of_completes {i : Instr} {s t : State} (h : Completes i s t) : exec i s = .next t := by
  cases h with
  | hlt => rfl
  | prn | jmp | ldi | add | sub | mul | cmp =>
    simp only [exec_prn, exec_jmp, exec_ldi, exec_add, exec_sub, exec_mul, exec_cmp]
  | ret _ hc | push _ _ hc | pop _ _ hc | div _ _ _ hc =>
    simp only [exec_ret, exec_push, exec_pop, exec_div, if_neg hc]
  | call _ _ hpc hsp => rw [exec_call, if_neg (not_or.mpr ⟨Nat.not_le.mpr hpc, hsp⟩)]
  | jeqTaken _ _ hE | jeqPassed _ _ hE | jneTaken _ _ hE | jnePassed _ _ hE =>
    simp [exec_jeq, exec_jne, hE]

/-! ## The fault conditions (R69, R92) -/

@[simp] theorem isRegister_regByte (a : Fin 8) : isRegister (regByte a) = true := by
  simp [isRegister, regByte_toNat]

theorem executionFault_of_wellFormed {i : Instr} (h : wellFormed i = true) (s : State) :
    executionFault i s = ownFault i s := if_pos h

/-- `FaultsOrCompletes i s`: the fault of R69's points 4 and 5 with only the status changed, or no fault
condition and a completion. -/
def FaultsOrCompletes (i : Instr) (s : State) : Prop :=
  (∃ r, executionFault i s = some r ∧ exec i s = .next (raiseFault r s)) ∨
    (executionFault i s = none ∧ ∃ t, Completes i s t)

/-- For an instruction that faults under one condition and completes otherwise. -/
theorem FaultsOrCompletes.of_guard {i : Instr} {s t : State} {c : Prop} [Decidable c] {r : FaultReason}
    (hexec : exec i s = if c then .next (raiseFault r s) else .next t)
    (hfault : executionFault i s = if c then some r else none)
    (hcomp : ¬c → Completes i s t) : FaultsOrCompletes i s := by
  by_cases hc : c
  · exact .inl ⟨r, hfault.trans (if_pos hc), hexec.trans (if_pos hc)⟩
  · exact .inr ⟨hfault.trans (if_neg hc), t, hcomp hc⟩

/-- Every instruction in every state faults on its condition, or completes. -/
theorem faultsOrCompletes (i : Instr) (s : State) : FaultsOrCompletes i s := by
  have own {i : Instr} (h : wellFormed i = true) := executionFault_of_wellFormed h s
  induction i using instr_operand_cases with
  | ill i hw => exact .inl ⟨_, if_neg (by simp [hw]), exec_of_illFormed hw s⟩
  | hlt => exact .inr ⟨rfl, _, .hlt s⟩
  | prn | jmp | ldi | add | sub | mul | cmp =>
    exact .inr ⟨own (by simp [wellFormed, registerOperands]), _, by constructor⟩
  | jeq a =>
    refine .inr ⟨own (by simp [wellFormed, registerOperands]), ?_⟩
    cases hE : flagE s.fl
    · exact ⟨_, .jeqPassed a s hE⟩
    · exact ⟨_, .jeqTaken a s hE⟩
  | jne a =>
    refine .inr ⟨own (by simp [wellFormed, registerOperands]), ?_⟩
    cases hE : flagE s.fl
    · exact ⟨_, .jneTaken a s hE⟩
    · exact ⟨_, .jnePassed a s hE⟩
  | ret => exact .of_guard (exec_ret s) (own rfl) (.ret s)
  | push a => exact .of_guard (exec_push a s) (own (by simp [wellFormed, registerOperands])) (.push a s)
  | pop a => exact .of_guard (exec_pop a s) (own (by simp [wellFormed, registerOperands])) (.pop a s)
  | call a =>
    refine .of_guard (exec_call a s) (own (by simp [wellFormed, registerOperands])) fun hc => ?_
    obtain ⟨hpc, hsp⟩ := not_or.mp hc
    exact .call a s (Nat.not_le.mp hpc) hsp
  | div a b =>
    refine .of_guard (exec_div a b s) ((own (by simp [wellFormed, registerOperands])).trans ?_) (.div a b s)
    rw [ownFault, operandValue_regByte]

/-- The same, read from an answer of `exec`. -/
theorem exec_cases {i : Instr} {s t : State} (h : exec i s = .next t) :
    (∃ r, executionFault i s = some r ∧ t = raiseFault r s) ∨
      (executionFault i s = none ∧ Completes i s t) := by
  rcases faultsOrCompletes i s with ⟨r, hf, hr⟩ | ⟨hf, u, hu⟩
  · exact .inl ⟨r, hf, Host.Outcome.next.inj (h.symm.trans hr)⟩
  · obtain rfl : t = u := Host.Outcome.next.inj (h.symm.trans (exec_of_completes hu))
    exact .inr ⟨hf, hu⟩

/-- No meaning stops the model (log 1). -/
theorem exec_next (i : Instr) (s : State) : ∃ t, exec i s = .next t := by
  rcases faultsOrCompletes i s with ⟨r, _, hr⟩ | ⟨_, t, ht⟩
  · exact ⟨_, hr⟩
  · exact ⟨t, exec_of_completes ht⟩

/-! ## What a completing instruction keeps -/

theorem Completes.status {i : Instr} {s t : State} (h : Completes i s t) :
    t.status = if i = .hlt then .halted else s.status := by
  cases h <;> rfl

theorem Completes.trace {i : Instr} {s t : State} (h : Completes i s t) : t.trace = s.trace := by
  cases h <;> rfl

theorem Completes.latches {i : Instr} {s t : State} (h : Completes i s t) : t.latches = s.latches := by
  cases h <;> rfl

/-- In a running engine, an answer of `exec` is faulted by a fault, and not by a completion. -/
theorem exec_running_cases {i : Instr} {s t : State} (hrun : s.status = .running)
    (h : exec i s = .next t) :
    (∃ r, executionFault i s = some r ∧ t = raiseFault r s) ∨
      (Completes i s t ∧ ∀ r, t.status ≠ .faulted r) := by
  refine (exec_cases h).imp_right fun ⟨_, hc⟩ => ⟨hc, fun r => ?_⟩
  rw [hc.status, hrun]
  split <;> exact nofun

/-! ## The obligations over executed instructions -/

/-- Settles O44, by `exec_of_illFormed`. -/
theorem illFormedRaisesInvalidRegister : Obligations.IllFormedRaisesInvalidRegister :=
  fun _ s h => exec_of_illFormed h s

/-- Settles O11: the two arms of `faultsOrCompletes`. -/
theorem executionFaultsExactly : Obligations.ExecutionFaultsExactly := by
  intro i s hrun
  rcases faultsOrCompletes i s with ⟨r, hf, hr⟩ | ⟨hf, t, ht⟩
  · rw [hf]; exact hr
  · rw [hf]; exact ⟨t, exec_of_completes ht, by rw [ht.status, hrun]⟩

theorem toNat_sub_one_add_one {b : Byte} (h : b ≠ 0) : (b - 1).toNat + 1 = b.toNat := by bv_omega

theorem toNat_add_one {b : Byte} (h : b ≠ 0xFF) : (b + 1).toNat = b.toNat + 1 := by bv_omega

/-- Settles O21: PUSH and CALL complete below SP = 0x00 only, POP and RET below 0xFF only. -/
theorem stackPointerMoves : Obligations.StackPointerMoves := by
  intro i s t hrun h
  rcases exec_running_cases hrun h with ⟨r, _, rfl⟩ | ⟨hc, hok⟩
  · exact ⟨fun _ => rfl, fun hno => absurd rfl (hno r)⟩
  · refine ⟨fun ⟨r, hr⟩ => absurd hr (hok r), fun _ => ?_⟩
    cases hc with
    | push _ _ hsp | call _ _ _ hsp => exact toNat_sub_one_add_one hsp
    | pop _ _ hsp | ret _ hsp => exact toNat_add_one hsp
    | _ => rfl

/-- Settles O23: PRN alone emits, and its operand byte names the register it emits. -/
theorem outOnlyByPrn : Obligations.OutOnlyByPrn := by
  intro i s t hrun h
  rcases exec_running_cases hrun h with ⟨r, _, rfl⟩ | ⟨hc, hok⟩
  · exact ⟨fun _ => rfl, fun hno => absurd rfl (hno r)⟩
  · refine ⟨fun ⟨r, hr⟩ => absurd hr (hok r), fun _ => ?_⟩
    cases hc with
    | prn a => exact ⟨a, rfl, rfl⟩
    | _ => rfl

theorem Completes.pcAfter {i : Instr} {s t : State} (h : Completes i s t) : PcAfter i s t := by
  cases h with
  | call a | jmp a => exact (zext9_toNat _).trans (operandValue_regByte s a).symm
  | ret => exact zext9_toNat _
  | jeqTaken a _ hE => exact (if_pos hE).mpr ((zext9_toNat _).trans (operandValue_regByte s a).symm)
  | jneTaken a _ hE =>
    exact (if_neg (Bool.eq_false_iff.mp hE)).mpr ((zext9_toNat _).trans (operandValue_regByte s a).symm)
  | jeqPassed a _ hE => exact (if_neg (Bool.eq_false_iff.mp hE)).mpr rfl
  | jnePassed a _ hE => exact (if_pos hE).mpr rfl
  | _ => rfl

end Sys2Proof.Proofs
end

section
/-! PROOF. The obligations over one step of a running engine (spec/40_cycle.md): the fetch is inverted once
(`step_cases`), and what the instruction then does is `exec_cases`. -/

namespace Sys2Proof.Proofs

open Sys2Proof.Machine Sys2Proof.Laws

/-! ## The fetch (R62, R65) -/

/-- Settles O6, by `fetchBytes_getElem?`. -/
theorem fetchReadsMemoryAtPc : Obligations.FetchReadsMemoryAtPc :=
  fun s k => fetchBytes_getElem? s.mem s.pc.toNat 3 k

theorem fetchWindow_of_pc_ge {s : State} (h : 256 ≤ s.pc.toNat) : fetchWindow s = [] := by
  rw [← List.length_eq_zero_iff, fetchWindow, fetchBytes_length]; omega

/-- A fetched instruction lies below address 256 with all its bytes. -/
theorem pc_add_length_le_of_decode_ok {s : State} {i : Instr} {rest : List Byte}
    (h : decode (fetchWindow s) = .ok (i, rest)) : s.pc.toNat + (encode i).length ≤ 256 := by
  have hlen : (fetchWindow s).length = (encode i).length + rest.length := by
    rw [eq_encode_append_of_decode_ok h, List.length_append]
  rw [fetchWindow, fetchBytes_length] at hlen
  have hpos := encode_length i
  omega

/-! ## The step (R61) -/

theorem step_of_decode_ok {s : State} {i : Instr} {rest : List Byte} (hrun : s.status = .running)
    (h : decode (fetchWindow s) = .ok (i, rest)) :
    step s = exec i (latch (fetchWindow s) (present s)) := by
  simp only [step_running hrun, h]

theorem step_of_decode_error {s : State} {e : DecodeError} (hrun : s.status = .running)
    (h : decode (fetchWindow s) = .error e) :
    step s = .next (raiseFault (decodeFault e) (latch (fetchWindow s) s)) := by
  simp only [step_running hrun, h]

/-- Everything a step of a running engine can do: fault before execution, or execute. -/
theorem step_cases {s t : State} (hrun : s.status = .running) (h : step s = .next t) :
    (∃ e, decode (fetchWindow s) = .error e ∧
      t = raiseFault (decodeFault e) (latch (fetchWindow s) s)) ∨
    (∃ i rest, decode (fetchWindow s) = .ok (i, rest) ∧
      exec i (latch (fetchWindow s) (present s)) = .next t) := by
  cases hdec : decode (fetchWindow s) with
  | error e =>
    rw [step_of_decode_error hrun hdec] at h; cases h
    exact .inl ⟨e, rfl, rfl⟩
  | ok r =>
    obtain ⟨i, rest⟩ := r
    exact .inr ⟨i, rest, rfl, (step_of_decode_ok hrun hdec).symm.trans h⟩

/-- Settles O13: a stopped engine keeps its state, and a running one faults or executes. -/
theorem everyStepHasNextState : Obligations.EveryStepHasNextState := by
  intro s
  by_cases hrun : s.status = .running
  · cases hdec : decode (fetchWindow s) with
    | error e => exact ⟨_, step_of_decode_error hrun hdec⟩
    | ok r => rw [step_of_decode_ok hrun hdec]; exact exec_next r.1 _
  · exact ⟨s, step_stopped hrun⟩

/-- Settles O8, by induction on the number of steps. -/
theorem stoppedEngineDoesNothing : Obligations.StoppedEngineDoesNothing := by
  intro s k hstop
  induction k with
  | zero => rfl
  | succ k ih => rw [run_succ (step_stopped hstop), ih]

/-! ## The trace and the latches (R61, R68) -/

/-- Neither a fault nor a completion reaches the trace and the latches (R28, R68). -/
theorem sameTrace_of_exec {i : Instr} {s t : State} (h : exec i s = .next t) : SameTrace s t := by
  rcases exec_cases h with ⟨r, _, rfl⟩ | ⟨_, hc⟩
  · exact ⟨rfl, rfl⟩
  · exact ⟨hc.trace, hc.latches⟩

/-- Settles O24: `present` adds the tuple before execution, and `exec` adds none. -/
theorem traceOfStep : Obligations.TraceOfStep := by
  intro s t hrun h
  rcases step_cases hrun h with ⟨e, hdec, rfl⟩ | ⟨i, rest, hdec, hexec⟩
  · rw [hdec]; exact ⟨nofun, fun _ => rfl⟩
  · obtain ⟨htrace, _⟩ := sameTrace_of_exec hexec
    rw [hdec]; exact ⟨fun _ => htrace, nofun⟩

/-- Settles O7: the opcode byte of a decoded instruction lies below 256, so the trace shows it. -/
theorem stepRunsDecodedInstruction : Obligations.StepRunsDecodedInstruction := by
  intro s i rest hrun hdec
  have hpc : s.pc.toNat < 256 := by
    have hend := pc_add_length_le_of_decode_ok hdec
    have hpos := encode_length i
    omega
  have hir : traceByte s.mem s.pc.toNat = memGet s.mem s.pc.toNat := if_pos hpc
  rw [step_of_decode_ok hrun hdec, ← hir]
  rfl

theorem loadLatches_cons_ir (ir : Byte) (ops : List Byte) (l : Latches) :
    (loadLatches (ir :: ops) l).ir = ir := by
  unfold loadLatches
  split
  · contradiction
  · next hcons => cases hcons; split <;> [rfl; split <;> rfl]

/-- Settles O9: the first byte of the window goes to IR; at 256 the window is empty. -/
theorem opcodeFetch : Obligations.OpcodeFetch := by
  refine fun s hrun => ⟨fun hpc => ?_, fun hpc => ?_⟩
  · obtain ⟨tail, hwin, _⟩ := fetchWindow_of_pc_lt hpc
    obtain ⟨t, ht⟩ := everyStepHasNextState s
    refine ⟨t, ht, ?_⟩
    have hlatch : t.latches = loadLatches (fetchWindow s) s.latches := by
      rcases step_cases hrun ht with ⟨e, _, rfl⟩ | ⟨i, rest, _, hexec⟩
      · rfl
      · exact (sameTrace_of_exec hexec).2
    rw [hlatch, hwin, loadLatches_cons_ir]
  · have hwin : fetchWindow s = [] := fetchWindow_of_pc_ge hpc.ge
    rw [step_of_decode_error hrun (by rw [hwin]; rfl), hwin]
    rfl

/-! ## Faults (R69, R96) -/

/-- What a fault before execution leaves: the architectural state, `out` and the trace. -/
theorem step_fault_of_decode_error {s : State} {e : DecodeError} (hrun : s.status = .running)
    (h : decode (fetchWindow s) = .error e) :
    ∃ t, step s = .next t ∧ t.status = .faulted (decodeFault e) ∧ SameArch s t ∧ t.trace = s.trace :=
  ⟨_, step_of_decode_error hrun h, rfl, sameArch_raiseFault_latch _ _ s, rfl⟩

theorem decode_fetchWindow_of_selectOpcode_error {s : State} {e : DecodeError} (hpc : s.pc.toNat < 256)
    (h : selectOpcode (memGet s.mem s.pc.toNat) = .error e) : decode (fetchWindow s) = .error e := by
  obtain ⟨tail, hwin, _⟩ := fetchWindow_of_pc_lt hpc
  simp only [hwin, decode, h]

/-- The 15 bytes of R55 are the opcode bytes. -/
theorem exists_opcodeByte_eq {ir : Byte}
    (h : ir ∈ ([0x01, 0x11, 0x45, 0x46, 0x47, 0x50, 0x54, 0x55, 0x56, 0x82,
      0xA0, 0xA1, 0xA2, 0xA3, 0xA7] : List Byte)) : ∃ o, ir = opcodeByte o := by
  have hmem : ir ∈ (dispatchOpcodes ++ aluOpcodes).map opcodeByte := h
  obtain ⟨o, _, ho⟩ := List.mem_map.mp hmem
  exact ⟨o, ho.symm⟩

/-- Settles O10: the decoder's error names the fault, in the order of R69. -/
theorem fetchFaultsInOrder : Obligations.FetchFaultsInOrder := by
  refine fun s hrun => ⟨fun hpc => ?_, fun hpc hbit hno => ?_, fun hpc hbit hno => ?_,
    fun hpc hop hend => ?_⟩
  · exact step_fault_of_decode_error (e := .opcodeMissing) hrun (by rw [fetchWindow_of_pc_ge hpc]; rfl)
  · exact step_fault_of_decode_error hrun (decode_fetchWindow_of_selectOpcode_error hpc
      ((selectOpcode_unsupportedALUOperation_iff _).mpr ⟨hbit, hno⟩))
  · exact step_fault_of_decode_error hrun (decode_fetchWindow_of_selectOpcode_error hpc
      ((selectOpcode_unsupportedOpcode_iff _).mpr ⟨hbit, hno⟩))
  · obtain ⟨o, ho⟩ := exists_opcodeByte_eq hop
    rw [ho] at hend
    exact ⟨_, step_of_operand_past_end hrun ho hpc (by omega), rfl, sameArch_raiseFault_latch _ _ s, rfl⟩

/-- Settles O12: a fault before execution leaves the trace, one at execution has the tuple on it. -/
theorem faultsArePrecise : Obligations.FaultsArePrecise := by
  intro s t reason hrun h hfault
  rcases step_cases hrun h with ⟨e, _, rfl⟩ | ⟨i, rest, _, hexec⟩
  · exact ⟨sameArch_raiseFault_latch _ _ s, .inl rfl⟩
  · rcases exec_running_cases (s := latch _ (present s)) hrun hexec with ⟨r, _, rfl⟩ | ⟨_, hok⟩
    · exact ⟨⟨rfl, rfl, rfl, rfl, rfl, rfl⟩, .inr rfl⟩
    · exact absurd hfault (hok reason)

/-- Settles O14: a fault is not a halt, and HLT alone completes into `Halted`. -/
theorem haltedExactlyByHlt : Obligations.HaltedExactlyByHlt := by
  intro s t hrun h
  rcases step_cases hrun h with ⟨e, hdec, rfl⟩ | ⟨i, rest, hdec, hexec⟩
  · rw [hdec]; exact ⟨nofun, nofun⟩
  · rw [hdec]
    rcases exec_cases hexec with ⟨r, hf, rfl⟩ | ⟨_, hc⟩
    · refine ⟨nofun, fun ⟨rest', hi⟩ => ?_⟩
      cases hi; cases hf
    · have hst : t.status = if i = .hlt then .halted else .running := by
        rw [hc.status, latch_status, present_status, hrun]
      rw [hst]
      by_cases hi : i = .hlt <;> simp [hi]

/-! ## The program counter over a step (R66) -/

/-- The trace and the latches are nothing PC depends on. -/
theorem pcAfter_of_latch_present {i : Instr} {bytes : List Byte} {s t : State}
    (h : PcAfter i (latch bytes (present s)) t) : PcAfter i s t := by
  cases i <;> exact h

/-- Settles O22: `Completes.pcAfter`, in `exec` and, through the latched state, over the step. -/
theorem pcAfterInstruction : Obligations.PcAfterInstruction := by
  have hexec (i : Instr) (s t : State) (hrun : s.status = .running) (h : exec i s = .next t)
      (hok : ∀ r, t.status ≠ .faulted r) : PcAfter i s t := by
    rcases exec_cases h with ⟨r, _, rfl⟩ | ⟨_, hc⟩
    · exact absurd rfl (hok r)
    · exact hc.pcAfter
  refine ⟨hexec, fun i rest s t hrun hdec h hok => ?_⟩
  rw [step_of_decode_ok hrun hdec] at h
  exact pcAfter_of_latch_present (hexec i (latch _ (present s)) t hrun h hok)

end Sys2Proof.Proofs
end

section
/-! PROOF. The invariant `Inv` (spec/10_state.md sections 2, 4, 7; spec/20_memory.md section 1): it holds after a
load, and every step keeps it. -/

namespace Sys2Proof.Proofs

open Sys2Proof.Machine Sys2Proof.Laws

/-! ## One executed instruction -/

theorem toNat_pcWord_add {p : PcWord} {n : Nat} (h : p.toNat + n ≤ 256) :
    (p + BitVec.ofNat 9 n).toNat = p.toNat + n := by
  rw [BitVec.toNat_add, BitVec.toNat_ofNat]; omega

theorem zext9_toNat_le (b : Byte) : (zext9 b).toNat ≤ 256 := by
  rw [zext9_toNat]; exact (byte_lt b).le

/-- PUSH and CALL write inside the memory, and no other instruction writes it. -/
theorem Completes.mem_wf {i : Instr} {s t : State} (h : Completes i s t) (hmem : s.mem.wf = true) :
    t.mem.wf = true := by
  cases h with
  | push | call => exact memSet_wf hmem (byte_lt _)
  | _ => exact hmem

/-- PC goes to a byte, or past an instruction that lies in the memory. -/
theorem Completes.pc_le {i : Instr} {s t : State} (h : Completes i s t)
    (hpc : s.pc.toNat + (encode i).length ≤ 256) : t.pc.toNat ≤ 256 := by
  cases h with
  | ret | call | jmp | jeqTaken | jneTaken => exact zext9_toNat_le _
  | _ => exact (toNat_pcWord_add hpc).trans_le hpc

theorem Completes.fl_legal {i : Instr} {s t : State} (h : Completes i s t) (hfl : flLegal s.fl) :
    flLegal t.fl := by
  cases h with
  | cmp => exact .inr (compareFlags_one_flag _ _)
  | _ => exact hfl

theorem Completes.out_length_le {i : Instr} {s t : State} (h : Completes i s t) :
    t.out.length ≤ s.out.length + 1 := by
  cases h with
  | prn => exact (List.length_append ..).le
  | _ => exact Nat.le_succ _

/-! ## One step, and a run -/

/-- Settles O15: a fault keeps every field of the invariant; a completion keeps them by the `Completes`
lemmas, with room on the trace for the one byte a PRN sends. -/
theorem stepKeepsInv : Obligations.StepKeepsInv := by
  intro s t hinv h
  by_cases hrun : s.status = .running
  · rcases step_cases hrun h with ⟨e, _, rfl⟩ | ⟨i, rest, hdec, hexec⟩
    · exact ⟨hinv.mem_wf, hinv.pc_le, hinv.fl_legal, hinv.out_le_trace⟩
    · have hroom : s.out.length + 1 ≤ (s.trace ++ [traceTuple s]).length := by
        rw [List.length_append]; exact Nat.succ_le_succ hinv.out_le_trace
      rcases exec_cases hexec with ⟨r, _, rfl⟩ | ⟨_, hc⟩
      · exact ⟨hinv.mem_wf, hinv.pc_le, hinv.fl_legal, Nat.le_of_succ_le hroom⟩
      · refine ⟨hc.mem_wf hinv.mem_wf, hc.pc_le (pc_add_length_le_of_decode_ok hdec),
          hc.fl_legal hinv.fl_legal, ?_⟩
        rw [hc.trace]; exact hc.out_length_le.trans hroom
  · rw [step_stopped hrun] at h; cases h; exact hinv

/-- Settles O16: every field is a value of the reset state. -/
theorem resetHasInv : Obligations.ResetHasInv := ⟨rfl, by decide, .inl rfl, le_rfl⟩

theorem load_of_length_le {image : List Byte} (h : image.length ≤ 256) :
    load (some image) =
      .next (setStatus .running (setMem (memStore State.reset.mem 0 image) State.reset)) := if_pos h

theorem load_of_length_gt {image : List Byte} (h : 256 < image.length) :
    load (some image) = .refused (.imageTooLong image.length) := if_neg (Nat.not_le.mpr h)

theorem inv_of_load {image : List Byte} {s : State} (h : load (some image) = .next s) : Inv s := by
  by_cases hlen : image.length ≤ 256
  · rw [load_of_length_le hlen] at h; cases h
    exact ⟨memStore_wf rfl (by simpa using hlen), resetHasInv.pc_le, resetHasInv.fl_legal,
      resetHasInv.out_le_trace⟩
  · rw [load_of_length_gt (Nat.not_le.mp hlen)] at h; cases h

theorem inv_of_run {s t : State} {k : Nat} (hinv : Inv s) (h : Host.Core.run core k s = .next t) :
    Inv t := by
  induction k generalizing s with
  | zero => cases h; exact hinv
  | succ k ih =>
    obtain ⟨u, hu⟩ := everyStepHasNextState s
    rw [run_succ hu] at h
    exact ih (stepKeepsInv s u hinv hu) h

/-- Settles O17: the invariant after the load, then `inv_of_run`. -/
theorem invAfterLoadAndRun : Obligations.InvAfterLoadAndRun :=
  fun _ _ _ _ hload hrun => inv_of_run (inv_of_load hload) hrun

end Sys2Proof.Proofs
end

section
/-! PROOF. The obligations over memory (spec/20_memory.md): which accesses an instruction makes, what the fetch
reads back, and where the loader's bytes lie (spec/70_reset_and_hazards.md section 1). -/

namespace Sys2Proof.Proofs

open Sys2Proof.Machine Sys2Proof.Laws

/-! ## Data accesses (R37) -/

/-- PUSH and CALL write the byte at the decremented SP; nothing else is written. -/
theorem Completes.mem_cases {i : Instr} {s t : State} (h : Completes i s t) :
    t.mem = s.mem ∨ ((∃ ra, i = .push ra ∨ i = .call ra) ∧ t.sp = s.sp - 1 ∧
      ∃ v, t.mem = memSet s.mem (s.sp - 1).toNat v) := by
  cases h with
  | push => exact .inr ⟨⟨_, .inl rfl⟩, rfl, _, rfl⟩
  | call => exact .inr ⟨⟨_, .inr rfl⟩, rfl, _, rfl⟩
  | _ => exact .inl rfl

theorem exec_written_byte {i : Instr} {s t : State} {a : Nat} (hwf : s.mem.wf = true)
    (h : exec i s = .next t) (hne : memGet t.mem a ≠ memGet s.mem a) :
    (∃ ra, i = .push ra ∨ i = .call ra) ∧ t.sp = s.sp - 1 ∧ a = (s.sp - 1).toNat := by
  rcases exec_cases h with ⟨r, _, rfl⟩ | ⟨_, hc⟩
  · exact absurd rfl hne
  · rcases hc.mem_cases with hmem | ⟨hi, hsp, v, hmem⟩
    · exact absurd (by rw [hmem]) hne
    · refine ⟨hi, hsp, by_contra fun ha => hne ?_⟩
      rw [hmem, memGet_memSet hwf, if_neg ha]

/-- A completing instruction reads no byte of memory but, for RET and POP, the one at SP. -/
theorem Completes.with_memory {i : Instr} {s t : State} {m : Memory} (h : Completes i s t)
    (hread : (i = .ret ∨ ∃ ra, i = .pop ra) → memGet m s.sp.toNat = memGet s.mem s.sp.toNat) :
    ∃ u, Completes i (setMem m s) u ∧ setMem [] u = setMem [] t := by
  cases h with
  | ret _ hsp => exact ⟨_, .ret _ hsp, by rw [setMem_mem, setMem_sp, hread (.inl rfl)]; rfl⟩
  | pop a _ hsp => exact ⟨_, .pop a _ hsp, by rw [setMem_mem, setMem_sp, hread (.inr ⟨_, rfl⟩)]; rfl⟩
  | push a _ hsp => exact ⟨_, .push a _ hsp, rfl⟩
  | call a _ hpc hsp => exact ⟨_, .call a _ hpc hsp, rfl⟩
  | div a b _ hb => exact ⟨_, .div a b _ hb, rfl⟩
  | jeqTaken a _ hE => exact ⟨_, .jeqTaken a _ hE, rfl⟩
  | jeqPassed a _ hE => exact ⟨_, .jeqPassed a _ hE, rfl⟩
  | jneTaken a _ hE => exact ⟨_, .jneTaken a _ hE, rfl⟩
  | jnePassed a _ hE => exact ⟨_, .jnePassed a _ hE, rfl⟩
  | hlt | prn | jmp | ldi | add | sub | mul | cmp =>
    refine ⟨_, by constructor, ?_⟩
    rfl

/-- No fault condition of R92 looks at memory. -/
theorem executionFault_setMem (i : Instr) (m : Memory) (s : State) :
    executionFault i (setMem m s) = executionFault i s := by
  cases i <;> rfl

theorem exec_of_executionFault {i : Instr} {s : State} {r : FaultReason}
    (h : executionFault i s = some r) : exec i s = .next (raiseFault r s) := by
  rcases faultsOrCompletes i s with ⟨r', hf, hr⟩ | ⟨hf, _⟩
  · obtain rfl : r' = r := Option.some.inj (hf.symm.trans h)
    exact hr
  · rw [hf] at h; cases h

theorem exec_setMem {i : Instr} {s t : State} {m : Memory} (h : exec i s = .next t)
    (hread : (i = .ret ∨ ∃ ra, i = .pop ra) → memGet m s.sp.toNat = memGet s.mem s.sp.toNat) :
    ∃ u, exec i (setMem m s) = .next u ∧ setMem [] u = setMem [] t := by
  rcases exec_cases h with ⟨r, hf, rfl⟩ | ⟨_, hc⟩
  · exact ⟨_, exec_of_executionFault ((executionFault_setMem i m s).trans hf), rfl⟩
  · obtain ⟨u, hu, hsame⟩ := hc.with_memory hread
    exact ⟨u, exec_of_completes hu, hsame⟩

/-! ## The fetch as a read (R62, R65) -/

theorem encode_prefix_of_decode_ok {bytes rest : List Byte} {i : Instr}
    (h : decode bytes = .ok (i, rest)) : encode i <+: bytes :=
  ⟨rest, (eq_encode_append_of_decode_ok h).symm⟩

theorem decode_of_encode_prefix {bytes : List Byte} {i : Instr} (h : encode i <+: bytes) :
    ∃ rest, decode bytes = .ok (i, rest) := by
  obtain ⟨rest, rfl⟩ := h
  exact ⟨rest, decode_encode_append i rest⟩

/-- Settles O20: `exec_written_byte`, `exec_setMem`, and a window that begins with the same encoding. -/
theorem memoryAccesses : Obligations.MemoryAccesses := by
  refine ⟨fun i s t a => exec_written_byte, fun i s t m => exec_setMem, fun i s m rest hdec hsame =>
    decode_of_encode_prefix (List.prefix_iff_getElem?.mpr fun k hk => ?_)⟩
  have hold := List.prefix_iff_getElem?.mp (encode_prefix_of_decode_ok hdec) k hk
  rw [fetchReadsMemoryAtPc] at hold ⊢
  rw [hsame k hk]; exact hold

/-- The first byte a fetch at a stack address reads. -/
theorem fetchWindow_at_sp_head (s : State) :
    (fetchWindow (setPc (zext9 s.sp) s))[0]? = some (memGet s.mem s.sp.toNat) := by
  have hpc : (zext9 s.sp).toNat = s.sp.toNat := zext9_toNat _
  have hget := fetchReadsMemoryAtPc (setPc (zext9 s.sp) s) 0
  rw [setPc_pc, setPc_mem, hpc, if_pos ⟨by omega, byte_lt _⟩] at hget
  exact hget

theorem memGet_memSet_same {m : Memory} (hm : m.wf = true) (a : Nat) (v : Byte) :
    memGet (memSet m a v) a = v := (memGet_memSet hm a v a).trans (if_pos rfl)

theorem Completes.push_byte {ra : Byte} {s t : State} (h : Completes (.push ra) s t)
    (hwf : s.mem.wf = true) : (memGet t.mem t.sp.toNat).toNat = operandValue s ra := by
  cases h with
  | push a =>
    rw [operandValue_regByte]
    exact congrArg BitVec.toNat (memGet_memSet_same hwf _ _)

theorem Completes.call_byte {ra : Byte} {s t : State} (h : Completes (.call ra) s t)
    (hwf : s.mem.wf = true) : (memGet t.mem t.sp.toNat).toNat = s.pc.toNat + 2 := by
  cases h with
  | call a _ hpc =>
    have hret : (BitVec.ofNat 8 (s.pc.toNat + 2)).toNat = s.pc.toNat + 2 :=
      (BitVec.toNat_ofNat _ _).trans (Nat.mod_eq_of_lt hpc)
    exact (congrArg BitVec.toNat (memGet_memSet_same hwf _ _)).trans hret

/-- Settles O36: the byte just written at the decremented SP is the one the fetch there reads. -/
theorem storeSeenByNextFetch : Obligations.StoreSeenByNextFetch := by
  intro i s t hwf hrun h hrunning
  rw [fetchWindow_at_sp_head, Option.map_some]
  rcases exec_cases h with ⟨r, _, rfl⟩ | ⟨_, hc⟩
  · cases hrunning
  · constructor
    · rintro ra rfl; rw [hc.push_byte hwf]
    · rintro ra rfl; rw [hc.call_byte hwf]

/-! ## Bytes stored from outside (R109; log 5) -/

/-- Stored bytes lie at rising addresses from `a`, and every other byte reads as before. -/
theorem memGet_memStore {m : Memory} (hm : m.wf = true) {a : Nat} {bytes : List Byte}
    (hfit : a + bytes.length ≤ 256) (x : Nat) :
    memGet (memStore m a bytes) x =
      if x < a then memGet m x else (bytes[x - a]?).getD (memGet m x) := by
  induction bytes generalizing m a with
  | nil => simp [memStore]
  | cons b bs ih =>
    rw [List.length_cons] at hfit
    rw [memStore, ih (memSet_wf hm (by rw [memSize_eq]; omega)) (by omega), memGet_memSet hm]
    rcases Nat.lt_trichotomy x a with hx | rfl | hx
    · rw [if_pos (by omega), if_pos hx, if_neg (by omega)]
    · simp
    · rw [if_neg (by omega), if_neg (by omega), if_neg (by omega),
        show x - a = (x - (a + 1)) + 1 by omega, List.getElem?_cons_succ]

theorem placeAt_add_three_le (s : State) : (placeAt s).toNat + 3 ≤ 256 := by
  unfold placeAt
  split
  · assumption
  · decide

/-- The bytes placed are the first the next step fetches. -/
theorem prefix_fetchWindow_placeInstruction {s : State} {bytes : List Byte} (hwf : s.mem.wf = true)
    (hlen : bytes.length ≤ 3) : bytes <+: fetchWindow (placeInstruction bytes s) := by
  have hthree := placeAt_add_three_le s
  have hpc : (placeInstruction bytes s).pc = placeAt s := rfl
  have hmem : (placeInstruction bytes s).mem = memStore s.mem (placeAt s).toNat bytes := rfl
  refine List.prefix_iff_getElem?.mpr fun k hk => ?_
  rw [fetchReadsMemoryAtPc, hpc, hmem, if_pos (by omega), memGet_memStore hwf (by omega),
    if_neg (by omega), Nat.add_sub_cancel_left, List.getElem?_eq_getElem hk, Option.getD_some]

theorem decodeTableWord_some {nbits w : Nat} {i : Instr} (h : decodeTableWord nbits w = some i) :
    ∃ rest, decode (tableBytes nbits w) = .ok (i, rest) := by
  unfold decodeTableWord at h
  split at h
  · next hdec => cases h; exact ⟨_, hdec⟩
  · cases h

/-- Settles O50: the encoding begins the word's bytes, and those begin the window of the placed state. -/
theorem placedWordRuns : Obligations.PlacedWordRuns := by
  intro s nbits w i hwf hword
  obtain ⟨rest, hdec⟩ := decodeTableWord_some hword
  obtain ⟨rest', hdec'⟩ := decode_of_encode_prefix
    ((encode_prefix_of_decode_ok hdec).trans (prefix_fetchWindow_placeInstruction hwf le_rfl))
  exact ⟨_, step_of_decode_ok (s := s.withFetchWord nbits w) rfl hdec', rfl, rfl, rfl, rfl, rfl⟩

/-! ## The loader (R108, R109, R111) -/

/-- A loaded state: the image from address 0, zeros elsewhere, and all else as at reset. -/
theorem load_image {image : List Byte} (h : image.length ≤ 256) :
    ∃ t, load (some image) = .next t ∧ (∀ k, memGet t.mem k = (image[k]?).getD 0x00) ∧
      t.mem.wf = true ∧ { t with mem := [] } = State.reset := by
  have hfit : 0 + image.length ≤ 256 := by omega
  refine ⟨_, load_of_length_le h, fun k => ?_, memStore_wf rfl hfit, rfl⟩
  exact (memGet_memStore rfl hfit k).trans (if_neg (Nat.not_lt_zero k))

/-- Settles O46: `load_image`, the two answers without a run, and the zero byte at 0, which is no opcode. -/
theorem loadContract : Obligations.LoadContract := by
  have hdec : decode (fetchWindow State.reset) = .error .unsupportedOpcode := rfl
  obtain ⟨t, hstep, hstatus, harch, _⟩ := step_fault_of_decode_error rfl hdec
  exact ⟨fun _ => load_image, fun _ => load_of_length_gt, rfl, rfl, t, hstep, hstatus, harch⟩

/-- Settles O47: the reset input is a load. -/
theorem resetInputDiscardsState : Obligations.ResetInputDiscardsState := by
  refine ⟨fun _ _ => rfl, fun image h => ?_, fun _ _ => load_of_length_gt, fun _ => rfl⟩
  obtain ⟨t, hload, himage⟩ := load_image h
  exact ⟨t, fun _ => hload, himage⟩

end Sys2Proof.Proofs
end

section
/-! PROOF. The results of the single instructions (spec/41_alu.md to spec/44_control_flow.md): each completes by
its `Completes` case, which `exec_of_completes` turns into the answer of `exec`. -/

namespace Sys2Proof.Proofs

open Sys2Proof.Machine Sys2Proof.Laws

/-! ## ALU -/

theorem aluSub_toNat (x y : Byte) :
    ((aluSub x y).toNat : Int) = ((x.toNat : Int) - (y.toNat : Int)) % 256 := by
  rw [aluSub, BitVec.toNat_ofInt]
  exact Int.toNat_of_nonneg (Int.emod_nonneg _ (by decide))

theorem aluMul_toNat (x y : Byte) : (aluMul x y).toNat = (x.toNat * y.toNat) % 256 :=
  BitVec.toNat_ofNat _ _

theorem quotient_toNat (x : Byte) (n : Nat) : (BitVec.ofNat 8 (x.toNat / n)).toNat = x.toNat / n := by
  rw [BitVec.toNat_ofNat]
  exact Nat.mod_eq_of_lt ((Nat.div_le_self _ _).trans_lt (byte_lt x))

theorem getReg_advance_setReg_same (n : Nat) (a : Fin 8) (v : Byte) (s : State) :
    getReg (advance n (setReg a v s)) a = v :=
  (getReg_setReg a a v s).trans (if_pos rfl)

/-- Settles O26: the difference by `aluSub_toNat`. -/
theorem subResult : Obligations.SubResult := by
  refine fun a b s => ⟨_, exec_sub a b s, ?_, sameRegsBut_advance_setReg _ _ _ _, rfl, rfl, rfl, rfl,
    fun _ => rfl, rfl, rfl, rfl⟩
  rw [getReg_advance_setReg_same, aluSub_toNat]

/-- Settles O27: the product by `aluMul_toNat`. -/
theorem mulResult : Obligations.MulResult := by
  refine fun a b s => ⟨_, exec_mul a b s, ?_, sameRegsBut_advance_setReg _ _ _ _, rfl, rfl, rfl, rfl,
    fun _ => rfl, rfl, rfl, rfl⟩
  rw [getReg_advance_setReg_same, aluMul_toNat]

/-- Settles O28: the bounds are those of the division of natural numbers. -/
theorem divResult : Obligations.DivResult := by
  refine fun a b s => ⟨fun hb => ⟨_, exec_of_completes (.div a b s hb), ?_, ?_,
    sameRegsBut_advance_setReg _ _ _ _, rfl, rfl, rfl, rfl, fun _ => rfl, rfl, rfl, rfl⟩,
    fun hb => (exec_div a b s).trans (if_pos hb)⟩
  · rw [getReg_advance_setReg_same, quotient_toNat]
    exact Nat.div_mul_le_self _ _
  · rw [getReg_advance_setReg_same, quotient_toNat]
    exact Nat.lt_mul_of_div_lt (Nat.lt_succ_self _) (Nat.pos_of_ne_zero hb)

theorem compareFlags_iff (x y : Byte) :
    (compareFlags x y = 1 ↔ x.toNat = y.toNat) ∧ (compareFlags x y = 2 ↔ y.toNat < x.toNat) ∧
      (compareFlags x y = 4 ↔ x.toNat < y.toNat) := by
  rcases compareFlags_cases x y with ⟨rfl, hf⟩ | ⟨hlt, hf⟩ | ⟨hlt, hf⟩ <;> rw [hf]
  · simp
  · simp [hlt, hlt.ne', hlt.le]
  · simp [hlt, hlt.ne, hlt.le]

/-- Settles O29, by `compareFlags_iff`. -/
theorem cmpResult : Obligations.CmpResult := by
  intro a b s
  obtain ⟨heq, hgt, hlt⟩ := compareFlags_iff (getReg s a) (getReg s b)
  exact ⟨_, exec_cmp a b s, heq, hgt, hlt, fun _ => rfl, rfl, rfl, rfl, fun _ => rfl, rfl, rfl, rfl⟩

/-! ## Print and halt -/

/-- Settles O31: `exec_prn` emits the register's byte. -/
theorem prnResult : Obligations.PrnResult := fun a s =>
  ⟨_, exec_prn a s, rfl, fun _ => rfl, rfl, rfl, rfl, rfl, fun _ => rfl, rfl, rfl⟩

/-- Settles O32: `exec_hlt`, and `inspect` shows a halted state. -/
theorem hltResult : Obligations.HltResult := fun s =>
  ⟨_, exec_hlt s, rfl, rfl, fun _ => rfl, rfl, rfl, fun _ => rfl, rfl, ⟨rfl, rfl⟩, rfl⟩

/-! ## Stack -/

theorem toNat_sub_one {b : Byte} (h : b ≠ 0) : (b - 1).toNat = b.toNat - 1 :=
  Nat.eq_sub_of_add_eq (toNat_sub_one_add_one h)

theorem sameMemoryBut_of_memSet {s t : State} {a : Nat} {v : Byte} (hwf : s.mem.wf = true)
    (h : t.mem = memSet s.mem a v) : SameMemoryBut a s t := by
  intro x hx
  rw [h, memGet_memSet hwf, if_neg hx]

/-- Settles O33: one byte is written, at the decremented SP. -/
theorem pushResult : Obligations.PushResult := by
  refine fun a s hwf => ⟨fun hsp => ?_, fun hsp => (exec_push a s).trans (if_pos hsp)⟩
  rw [← toNat_sub_one hsp]
  exact ⟨_, exec_of_completes (.push a s hsp), rfl, memGet_memSet_same hwf _ _,
    sameMemoryBut_of_memSet hwf rfl, fun _ => rfl, rfl, rfl, rfl, rfl, rfl, rfl⟩

/-- Settles O34: the byte at SP goes to the register. -/
theorem popResult : Obligations.PopResult := fun a s =>
  ⟨fun hsp => ⟨_, exec_of_completes (.pop a s hsp), getReg_advance_setReg_same _ _ _ _,
    toNat_add_one hsp, sameRegsBut_advance_setReg 2 a _ (setSp (s.sp + 1) s), rfl, rfl, rfl,
    fun _ => rfl, rfl, rfl, rfl⟩, fun hsp => (exec_pop a s).trans (if_pos hsp)⟩

/-! ## Control transfer -/

/-- Settles O37: the return address is the byte written at the decremented SP. -/
theorem callResult : Obligations.CallResult := by
  refine fun a s hwf => ⟨fun ⟨hpc, hsp⟩ => ?_, fun hfault => (exec_call a s).trans (if_pos hfault)⟩
  have hcall : Completes (.call (regByte a)) s _ := .call a s (Nat.lt_succ_of_le hpc) hsp
  rw [← toNat_sub_one hsp]
  exact ⟨_, exec_of_completes hcall, zext9_toNat _, rfl, hcall.call_byte hwf,
    sameMemoryBut_of_memSet hwf rfl, fun _ => rfl, rfl, rfl, rfl, rfl, rfl⟩

/-- Settles O38: the byte at SP goes to PC. -/
theorem retResult : Obligations.RetResult := fun s =>
  ⟨fun hsp => ⟨_, exec_of_completes (.ret s hsp), zext9_toNat _, toNat_add_one hsp, fun _ => rfl, rfl,
    rfl, fun _ => rfl, rfl, rfl, rfl⟩, fun hsp => (exec_ret s).trans (if_pos hsp)⟩

/-- Settles O39: the target byte is zero-extended. -/
theorem jmpResult : Obligations.JmpResult := fun a s =>
  ⟨_, exec_jmp a s, zext9_toNat _, fun _ => rfl, rfl, rfl, rfl, fun _ => rfl, rfl, rfl, rfl⟩

/-- JEQ is taken with E set and JNE with E clear; both have the same two ends (R90, R91). -/
theorem exec_branch {i : Instr} {a : Fin 8} (hi : i = .jeq (regByte a) ∨ i = .jne (regByte a))
    (s : State) : exec i s = .next
      (if s.fl.getLsbD 0 = decide (i = .jeq (regByte a)) then setPc (zext9 (getReg s a)) s
        else advance 2 s) := by
  rcases hi with rfl | rfl
  · rw [exec_jeq]; simp [flagE]
  · rw [exec_jne]; simp [flagE]

/-- Settles O40: the two ends of `exec_branch`. -/
theorem branchResult : Obligations.BranchResult := by
  intro a s i hi
  rw [exec_branch hi s]
  by_cases htaken : s.fl.getLsbD 0 = decide (i = .jeq (regByte a))
  · rw [if_pos htaken]
    exact ⟨_, rfl, (if_pos htaken).mpr (zext9_toNat _), fun _ => rfl, rfl, rfl, rfl, fun _ => rfl, rfl,
      rfl, rfl⟩
  · rw [if_neg htaken]
    exact ⟨_, rfl, (if_neg htaken).mpr rfl, fun _ => rfl, rfl, rfl, rfl, fun _ => rfl, rfl, rfl, rfl⟩

/-! ## Two instructions in sequence (spec/95_test_vectors.md S4) -/

theorem pcWord_add_add (p : PcWord) (m n : Nat) :
    p + BitVec.ofNat 9 m + BitVec.ofNat 9 n = p + BitVec.ofNat 9 (m + n) := by
  rw [BitVec.add_assoc, BitVec.ofNat_add]

theorem sub_one_ne_max {b : Byte} (h : b ≠ 0) : b - 1 ≠ 0xFF := by bv_omega

/-- Settles O35: POP reads the byte PUSH wrote, and SP comes back. -/
theorem pushThenPop : Obligations.PushThenPop := by
  refine fun a b s hwf hsp => ⟨_, _, exec_of_completes (.push a s hsp),
    exec_of_completes (.pop b _ (sub_one_ne_max hsp)), ?_, fun j hj => ?_, BitVec.sub_add_cancel _ _,
    pcWord_add_add _ 2 2⟩
  · exact (getReg_advance_setReg_same ..).trans (memGet_memSet_same hwf _ _)
  · exact getReg_setReg_of_ne hj.symm _ _

/-- Settles O41: the byte at SP is the return address (`Completes.call_byte`), wherever the RET stands. -/
theorem callThenRet : Obligations.CallThenRet := by
  intro a s hwf hpc hsp
  have hcall : Completes (.call (regByte a)) s _ := .call a s (Nat.lt_succ_of_le hpc) hsp
  refine ⟨_, exec_of_completes hcall, fun v hvsp hbyte => ?_⟩
  have hv : v.sp = s.sp - 1 := hvsp
  refine ⟨_, exec_of_completes (.ret v (hv ▸ sub_one_ne_max hsp)), BitVec.eq_of_toNat_eq ?_, ?_⟩
  · calc (zext9 (memGet v.mem v.sp.toNat)).toNat
      _ = s.pc.toNat + 2 := by rw [zext9_toNat, hbyte, hcall.call_byte hwf]
      _ = (s.pc + 2).toNat := (toNat_pcWord_add (by omega)).symm
  · change v.sp + 1 = s.sp
    rw [hv, BitVec.sub_add_cancel]

theorem flagE_compareFlags (x y : Byte) : flagE (compareFlags x y) = decide (x = y) := by
  rcases compareFlags_cases x y with ⟨rfl, hf⟩ | ⟨hlt, hf⟩ | ⟨hlt, hf⟩ <;> rw [hf]
  · simp [flagE]
  · rw [decide_eq_false (by rintro rfl; exact hlt.false)]; rfl
  · rw [decide_eq_false (by rintro rfl; exact hlt.false)]; rfl

/-- Settles O42: CMP leaves E as the equality of the two registers. -/
theorem cmpThenBranch : Obligations.CmpThenBranch := by
  intro a b c s
  have hE := flagE_compareFlags (getReg s a) (getReg s b)
  by_cases hab : getReg s a = getReg s b
  · rw [decide_eq_true hab] at hE
    exact ⟨_, _, _, exec_cmp a b s, exec_of_completes (.jeqTaken c _ hE),
      exec_of_completes (.jnePassed c _ hE), (if_pos hab).mpr ⟨zext9_toNat _, pcWord_add_add _ 3 2⟩⟩
  · rw [decide_eq_false hab] at hE
    exact ⟨_, _, _, exec_cmp a b s, exec_of_completes (.jeqPassed c _ hE),
      exec_of_completes (.jneTaken c _ hE), (if_neg hab).mpr ⟨pcWord_add_add _ 3 2, zext9_toNat _⟩⟩

theorem aluSub_aluAdd (x y : Byte) : aluSub (aluAdd x y) y = x := by
  have hsub := aluSub_toNat (aluAdd x y) y
  rw [aluAdd_toNat] at hsub
  have hx := byte_lt x
  exact BitVec.eq_of_toNat_eq (by omega)

/-- Settles O43: SUB reads the sum in R`a` and R`b` unchanged. -/
theorem addThenSub : Obligations.AddThenSub := by
  refine fun a b s hab => ⟨_, _, exec_add a b s, exec_sub a b _, fun j => ?_, pcWord_add_add _ 3 3⟩
  by_cases hj : j = a
  · subst hj
    rw [getReg_advance_setReg_same, getReg_advance_setReg_same, getReg_advance,
      getReg_setReg_of_ne hab, aluSub_aluAdd]
  · rw [getReg_advance, getReg_setReg_of_ne (Ne.symm hj), getReg_advance,
      getReg_setReg_of_ne (Ne.symm hj)]

end Sys2Proof.Proofs
end

section
/-! PROOF. The obligations over the reset state and the ports `status` and `inspect` (spec/10_state.md sections
7, 8; spec/60_exceptions.md section 1). -/

namespace Sys2Proof.Proofs

open Sys2Proof.Machine Sys2Proof.Laws

/-- Settles O45: the fields of the reset state. -/
theorem resetValues : Obligations.ResetValues :=
  ⟨rfl, rfl, rfl, rfl, rfl, by decide, fun _ => rfl⟩

/-- The run status a code stands for; `running` for the codes 7 to 15, which no status has. -/
def statusOfCode (c : BitVec 4) : RunStatus :=
  match c.toNat with
  | 1 => .halted
  | 2 => .faulted .divisionByZero
  | 3 => .faulted .unsupportedOpcode
  | 4 => .faulted .unsupportedALUOperation
  | 5 => .faulted .outOfBoundsAccess
  | 6 => .faulted .invalidRegister
  | _ => .running

theorem statusOfCode_statusCode : Function.LeftInverse statusOfCode statusCode := by
  rintro (_ | _ | r)
  · rfl
  · rfl
  · cases r <;> rfl

theorem statusCode_toNat_le (x : RunStatus) : (statusCode x).toNat ≤ 6 := by
  rcases x with _ | _ | r
  · decide
  · decide
  · cases r <;> decide

/-- Settles O48: a status can be read back from its code. -/
theorem statusCodes : Obligations.StatusCodes :=
  ⟨fun _ _ h => statusOfCode_statusCode.injective h, statusCode_toNat_le, rfl, rfl⟩

theorem inspect_of_running {s : State} (h : s.status = .running) : inspect s = none := by
  simp only [inspect, h]

theorem inspect_of_stopped {s : State} (h : s.status ≠ .running) :
    inspect s = some { regs := s.regs, pc := s.pc, sp := s.sp, fl := s.fl, mem := s.mem } := by
  unfold inspect
  split
  · contradiction
  · rfl
  · rfl

/-- Settles O49: the state is shown exactly when stopped, and a stopped engine keeps it. -/
theorem inspectWhenStopped : Obligations.InspectWhenStopped := by
  refine fun s => ⟨⟨fun hnone => by_contra fun hstop => ?_, inspect_of_running⟩, fun hstop =>
    ⟨inspect_of_stopped hstop, fun t ht => ?_⟩⟩
  · rw [inspect_of_stopped hstop] at hnone; cases hnone
  · rw [step_stopped hstop] at ht; cases ht; rfl

end Sys2Proof.Proofs
end
